-- ==== Sys2Proof/Word.lean ====
section
/-! DEFINITION. The widths of spec/00_scope.md rule R6: `BYTE`, `XLEN`, `PCLEN`. Every value is unsigned (rule R9). -/

namespace Sys2Proof

/-- A byte: one memory location, an opcode, a register operand (`BYTE` = 8, `REGLEN` = `OPLEN` = 1). -/
abbrev Byte := BitVec 8

/-- A 64-bit value: a general register, a stack entry, a literal, a data address (`XLEN` = 64). -/
abbrev Word := BitVec 64

/-- A program counter value (`PCLEN` = 32). -/
abbrev Pc := BitVec 32

end Sys2Proof
end

