-- ==== Sys2Proof/Machine/Alu.lean ====
section
/-! DEFINITION. The arithmetic of ADD, SUB, LSL and LSR: exact on natural numbers, narrowed to 64 bits at the end
(spec/40_basic_arith.md rule R130, 42_shift.md rule R150). -/

namespace Sys2Proof.Machine

/-- `(a + b) mod 2^64` (40 R130). -/
def wrapAdd (a b : Word) : Word := BitVec.ofNat 64 (a.toNat + b.toNat)

/-- `(a - b) mod 2^64`: `a - b` when `a >= b`, else `2^64 + a - b` (40 R130). -/
def wrapSub (a b : Word) : Word := BitVec.ofNat 64 (a.toNat + 2 ^ 64 - b.toNat)

/-- The one place that decides what an amount of 64 or more does: the result is 0, the amount is not reduced (42 R150,
D12). -/
def logicalShift (within : Nat → Word) (amount : Word) : Word :=
  if 64 ≤ amount.toNat then 0 else within amount.toNat

/-- `(v * 2^n) mod 2^64` (42 R150, R151). -/
def shiftLeft (v n : Word) : Word := logicalShift (fun k => BitVec.ofNat 64 (v.toNat * 2 ^ k)) n

/-- `floor(v / 2^n)` (42 R150, R152). -/
def shiftRight (v n : Word) : Word := logicalShift (fun k => BitVec.ofNat 64 (v.toNat / 2 ^ k)) n

end Sys2Proof.Machine
end

