-- ==== Sys2Proof/Syntax.lean ====
section
/-! DEFINITION. The 25 instructions of spec/30_encoding.md rule R86, their tags, and the seven formats of rule R81.
Operands stand in encoding order (R85). -/

namespace Sys2Proof

/-- The seven formats of 30 R81. -/
inductive Format where
  | f0
  | fr
  | frr
  | frrr
  | fl
  | frl
  | frrl
  deriving DecidableEq, Repr

/-- The tag of an instruction: what `Decode(op)` answers (30 R88, R94). -/
inductive Opcode where
  | nop
  | set
  | add
  | sub
  | ld
  | sto
  | ldr
  | str
  | lsl
  | lsr
  | jmp
  | jlt
  | jle
  | jgt
  | jge
  | jeq
  | jne
  | jpr
  | push
  | pop
  | call
  | ret
  | tx
  | rx
  | hlt
  deriving DecidableEq, Repr

/-- The operand bytes of an instruction, cut by its format: up to three register operands and one literal. A field the
format does not have is 0. -/
structure OperandFields where
  r1 : Byte := 0
  r2 : Byte := 0
  r3 : Byte := 0
  lit : Word := 0
  deriving DecidableEq, Repr

/-- A decoded instruction. A register operand is its whole byte, 0 to 255: "Values 16 to 255 are not rejected at
decode" (30 R83, R93). -/
inductive Instr where
  /-- 40 R131 -/
  | nop
  /-- 40 R132: reg (w), literal -/
  | set (reg : Byte) (lit : Word)
  /-- 40 R133: dst (w), a (r), b (r) -/
  | add (dst a b : Byte)
  /-- 40 R134: dst (w), a (r), b (r) -/
  | sub (dst a b : Byte)
  /-- 41 R141: reg (w), absolute address -/
  | ld (reg : Byte) (addr : Word)
  /-- 41 R142: reg (r), absolute address -/
  | sto (reg : Byte) (addr : Word)
  /-- 41 R143: dst (w), ptr (r) -/
  | ldr (dst ptr : Byte)
  /-- 41 R144: val (r), ptr (r) -/
  | str (val ptr : Byte)
  /-- 42 R151: reg (rw), amount (r) -/
  | lsl (reg amount : Byte)
  /-- 42 R152: reg (rw), amount (r) -/
  | lsr (reg amount : Byte)
  /-- 43 R161: target -/
  | jmp (addr : Word)
  /-- 43 R163: a (r), b (r), target -/
  | jlt (a b : Byte) (addr : Word)
  /-- 43 R164 -/
  | jle (a b : Byte) (addr : Word)
  /-- 43 R165 -/
  | jgt (a b : Byte) (addr : Word)
  /-- 43 R166 -/
  | jge (a b : Byte) (addr : Word)
  /-- 43 R167 -/
  | jeq (a b : Byte) (addr : Word)
  /-- 43 R168 -/
  | jne (a b : Byte) (addr : Word)
  /-- 43 R169: ptr (r) -/
  | jpr (ptr : Byte)
  /-- 44 R176: reg (r) -/
  | push (reg : Byte)
  /-- 44 R177: reg (w) -/
  | pop (reg : Byte)
  /-- 45 R181: target -/
  | call (addr : Word)
  /-- 45 R182 -/
  | ret
  /-- 46 R191: reg (r) -/
  | tx (reg : Byte)
  /-- 46 R192: reg (w) -/
  | rx (reg : Byte)
  /-- 46 R193 -/
  | hlt
  deriving DecidableEq, Repr

/-- Why a byte string is not an instruction (30 R91, R94). -/
inductive DecodeError where
  /-- There is no opcode byte. -/
  | empty
  /-- The opcode byte is none of the 25 (30 R91). -/
  | unknownOpcode (op : Byte)
  /-- An operand byte of the opcode's format is missing. -/
  | truncated (op : Byte)
  deriving DecidableEq, Repr

end Sys2Proof
end

