-- ==== Sys2Proof/Decode.lean ====
section
/-! DEFINITION. The opcode table of spec/30_encoding.md rule R86, the decoder and the encoder, both written over that
one table: `Opcode.code` (byte 0), `Opcode.format` (the operand list's shape), `Opcode.build` and `Instr.operands`
(which operand stands where; 30 R84 asks that these lists can be changed in one place). -/

namespace Sys2Proof

/-- Byte 0 of each instruction (30 R86; the six conditional jumps are paired by position, D14). -/
def Opcode.code : Opcode → Byte
  | .nop => 0x00
  | .set => 0x01
  | .add => 0x02
  | .sub => 0x03
  | .ld => 0x11
  | .sto => 0x12
  | .ldr => 0x21
  | .str => 0x22
  | .lsl => 0x31
  | .lsr => 0x32
  | .jmp => 0x41
  | .jlt => 0x42
  | .jle => 0x43
  | .jgt => 0x44
  | .jge => 0x45
  | .jeq => 0x46
  | .jne => 0x47
  | .jpr => 0x48
  | .push => 0x51
  | .pop => 0x52
  | .call => 0x61
  | .ret => 0x62
  | .tx => 0xA1
  | .rx => 0xA2
  | .hlt => 0xFF

/-- The format of each instruction (30 R81, R86). -/
def Opcode.format : Opcode → Format
  | .nop | .ret | .hlt => .f0
  | .jpr | .push | .pop | .tx | .rx => .fr
  | .ldr | .str | .lsl | .lsr => .frr
  | .add | .sub => .frrr
  | .jmp | .call => .fl
  | .set | .ld | .sto => .frl
  | .jlt | .jle | .jgt | .jge | .jeq | .jne => .frrl

/-- The register operands of a format, one byte each (30 R81). -/
def Format.numRegs : Format → Nat
  | .f0 | .fl => 0
  | .fr | .frl => 1
  | .frr | .frrl => 2
  | .frrr => 3

/-- The literal operands of a format, eight bytes each (30 R81). -/
def Format.numLits : Format → Nat
  | .f0 | .fr | .frr | .frrr => 0
  | .fl | .frl | .frrl => 1

/-- How many operand bytes follow the opcode (30 R82). -/
def Format.operandBytes (f : Format) : Nat := f.numRegs + 8 * f.numLits

/-- The length of an instruction in bytes: `1 + (number of register operands) + 8 * (number of literal operands)`
(30 R82). -/
def Opcode.length (o : Opcode) : Nat := 1 + o.format.operandBytes

/-- All 25 tags, in the table's order (30 R86). -/
def Opcode.all : List Opcode :=
  [.nop, .set, .add, .sub, .ld, .sto, .ldr, .str, .lsl, .lsr, .jmp, .jlt, .jle, .jgt, .jge, .jeq, .jne, .jpr,
    .push, .pop, .call, .ret, .tx, .rx, .hlt]

/-- `Decode(op)` of 30 R94: one of the 25 tags, or `none` for Unknown. All eight bits are matched (30 R87). -/
def decodeOpcode (b : Byte) : Option Opcode := Opcode.all.find? fun o => o.code == b

/-- `v[55:0] ++ b`: the value shifted left eight bits, the new byte at the bottom (20 R55). -/
def shiftInByte (v : Word) (b : Byte) : Word := BitVec.ofNat 64 (v.toNat * 256 + b.toNat)

/-- A 64-bit value from its bytes, the first the most significant (20 R55, 30 R83). -/
def wordOfBytes (bs : List Byte) : Word := bs.foldl shiftInByte 0

/-- The eight bytes of a literal, most significant first (20 R56). -/
def bytesOfWord (w : Word) : List Byte :=
  [w.extractLsb' 56 8, w.extractLsb' 48 8, w.extractLsb' 40 8, w.extractLsb' 32 8, w.extractLsb' 24 8,
    w.extractLsb' 16 8, w.extractLsb' 8 8, w.extractLsb' 0 8]

/-- The operand bytes cut by the format (30 R81). -/
def Format.cut (f : Format) (bs : List Byte) : OperandFields :=
  match f with
  | .f0 => {}
  | .fr => { r1 := bs.getD 0 0 }
  | .frr => { r1 := bs.getD 0 0, r2 := bs.getD 1 0 }
  | .frrr => { r1 := bs.getD 0 0, r2 := bs.getD 1 0, r3 := bs.getD 2 0 }
  | .fl => { lit := wordOfBytes (bs.take 8) }
  | .frl => { r1 := bs.getD 0 0, lit := wordOfBytes ((bs.drop 1).take 8) }
  | .frrl => { r1 := bs.getD 0 0, r2 := bs.getD 1 0, lit := wordOfBytes ((bs.drop 2).take 8) }

/-- The operand bytes of a format from the operands: registers first, then the literal (30 R81). -/
def Format.emit (f : Format) (o : OperandFields) : List Byte :=
  match f with
  | .f0 => []
  | .fr => [o.r1]
  | .frr => [o.r1, o.r2]
  | .frrr => [o.r1, o.r2, o.r3]
  | .fl => bytesOfWord o.lit
  | .frl => o.r1 :: bytesOfWord o.lit
  | .frrl => o.r1 :: o.r2 :: bytesOfWord o.lit

/-- The instruction of a tag and its operands: the "Operands in encoding order" column of 30 R86. -/
def Opcode.build (o : Opcode) (f : OperandFields) : Instr :=
  match o with
  | .nop => .nop
  | .set => .set f.r1 f.lit
  | .add => .add f.r1 f.r2 f.r3
  | .sub => .sub f.r1 f.r2 f.r3
  | .ld => .ld f.r1 f.lit
  | .sto => .sto f.r1 f.lit
  | .ldr => .ldr f.r1 f.r2
  | .str => .str f.r1 f.r2
  | .lsl => .lsl f.r1 f.r2
  | .lsr => .lsr f.r1 f.r2
  | .jmp => .jmp f.lit
  | .jlt => .jlt f.r1 f.r2 f.lit
  | .jle => .jle f.r1 f.r2 f.lit
  | .jgt => .jgt f.r1 f.r2 f.lit
  | .jge => .jge f.r1 f.r2 f.lit
  | .jeq => .jeq f.r1 f.r2 f.lit
  | .jne => .jne f.r1 f.r2 f.lit
  | .jpr => .jpr f.r1
  | .push => .push f.r1
  | .pop => .pop f.r1
  | .call => .call f.lit
  | .ret => .ret
  | .tx => .tx f.r1
  | .rx => .rx f.r1
  | .hlt => .hlt

/-- The tag of an instruction. -/
def Instr.opcode : Instr → Opcode
  | .nop => .nop
  | .set _ _ => .set
  | .add _ _ _ => .add
  | .sub _ _ _ => .sub
  | .ld _ _ => .ld
  | .sto _ _ => .sto
  | .ldr _ _ => .ldr
  | .str _ _ => .str
  | .lsl _ _ => .lsl
  | .lsr _ _ => .lsr
  | .jmp _ => .jmp
  | .jlt _ _ _ => .jlt
  | .jle _ _ _ => .jle
  | .jgt _ _ _ => .jgt
  | .jge _ _ _ => .jge
  | .jeq _ _ _ => .jeq
  | .jne _ _ _ => .jne
  | .jpr _ => .jpr
  | .push _ => .push
  | .pop _ => .pop
  | .call _ => .call
  | .ret => .ret
  | .tx _ => .tx
  | .rx _ => .rx
  | .hlt => .hlt

/-- The operands of an instruction, by the same column of 30 R86. -/
def Instr.operands : Instr → OperandFields
  | .nop | .ret | .hlt => {}
  | .set r v | .ld r v | .sto r v => { r1 := r, lit := v }
  | .add d a b | .sub d a b => { r1 := d, r2 := a, r3 := b }
  | .ldr a b | .str a b | .lsl a b | .lsr a b => { r1 := a, r2 := b }
  | .jmp v | .call v => { lit := v }
  | .jlt a b v | .jle a b v | .jgt a b v | .jge a b v | .jeq a b v | .jne a b v => { r1 := a, r2 := b, lit := v }
  | .jpr r | .push r | .pop r | .tx r | .rx r => { r1 := r }

/-- The instruction's length in bytes, its opcode's (30 R82). -/
def Instr.length (i : Instr) : Nat := i.opcode.length

/-- A tag with its operand bytes, as the front part of a step has them after the fetches (30 R88, R89). -/
def Opcode.instr (o : Opcode) (bs : List Byte) : Instr := o.build (o.format.cut bs)

/-- The decoder, total on every byte string (30 R94): the instruction at its start and the bytes after it, or the name
of what is wrong. -/
def decode : List Byte → Except DecodeError (Instr × List Byte)
  | [] => .error .empty
  | op :: rest =>
    match decodeOpcode op with
    | none => .error (.unknownOpcode op)
    | some o =>
      if rest.length < o.format.operandBytes then .error (.truncated op)
      else .ok (o.instr (rest.take o.format.operandBytes), rest.drop o.format.operandBytes)

/-- The bytes of an instruction (30 R81, R86). -/
def encode (i : Instr) : List Byte := i.opcode.code :: i.opcode.format.emit i.operands

/-- The greatest length of an instruction (30 R82). -/
def maxInstrBytes : Nat := 11

/-- The bytes of an instruction word as spec/opcode_table.json's reader numbers its bits (bit 0 the least significant
bit of byte 0, byte `k` at bits `8k + 7` to `8k`), zero above `nbits`, up to the longest instruction. -/
def tableWordBytes (nbits w : Nat) : List Byte :=
  (List.range maxInstrBytes).map fun k => BitVec.ofNat 8 (w % 2 ^ nbits / 256 ^ k)

/-- What the decoder reads from a word of spec/opcode_table.json. -/
def decodeTableWord (nbits w : Nat) : Option Instr :=
  match decode (tableWordBytes nbits w) with
  | .ok (i, _) => some i
  | .error _ => none

end Sys2Proof
end

