-- ==== Sys2Proof/Config.lean ====
section
/-! DEFINITION. The constants of spec/00_scope.md rule R6, the parameters of rule R7 that a step reads, and the one
value the spec leaves undefined after a step. -/

namespace Sys2Proof

/-- What RX does when the input channel has no byte: `RX_EMPTY_POLICY` (00 R7, 10 R39, D15). -/
inductive RxPolicy where
  | block
  | fault
  deriving DecidableEq, Repr

/-- The parameters of 00 R7 that a step reads. They are fixed for a run (10 R20); the model keeps them in a field of
State that no step writes, so that a statement about every state is a statement about every value of them
(DESIGN CHOICE, notes/assumptions/1.md, safe). -/
structure Config where
  /-- `MEM_SIZE`: the allocated addresses are 0 to `memSize - 1` (20 R50, R51). -/
  memSize : Nat
  /-- `STACK_DEPTH`: `none` is unbounded (10 R32). -/
  stackDepth : Option Nat
  /-- `RX_EMPTY_POLICY` (10 R39). -/
  rxEmpty : RxPolicy
  /-- `CALL_TARGETS`: `none`, or the set of addresses CALL accepts (45 R183). -/
  callTargets : Option (List Word)
  deriving DecidableEq, Repr

/-- `NGPR` (00 R6): the general registers have indices 0 to 14. -/
abbrev Config.numGpr : Nat := 15

/-- `PC_INDEX` (00 R6): the register index that is a view of the program counter. -/
abbrev Config.pcIndex : Nat := 15

/-- `ENTRY_SLOT` (00 R6): bytes reserved at the start of every program image. -/
abbrev Config.entrySlot : Nat := 9

/-- `RESET_PC` (00 R6). -/
abbrev Config.resetPc : Pc := 0

/-- The defaults of 00 R7. `RX_EMPTY_POLICY` has no default there (OPEN); the model takes `fault`, as the spec's
vectors do (DESIGN CHOICE, notes/assumptions/4.md, unsafe). -/
def Config.default : Config :=
  { memSize := 2 ^ 32, stackDepth := none, rxEmpty := .fault, callTargets := none }

/-- FREE VALUE. What the program counter holds after a fault: "The value of `pc` after a fault is not defined by this
spec" (60 R203, 93 V10). It may differ from one fault record to another; nothing is known of it
(DESIGN CHOICE, notes/assumptions/6.md, safe). -/
opaque Config.pcAfterFault (code : Byte) (opcode : Option Byte) (pc0 : Pc) (info : Word) : Pc

end Sys2Proof
end

