-- ==== Sys2Proof/Machine/State.lean ====
section
/-! DEFINITION. The state of the machine, as spec/10_state.md rule R20 lists it, as plain data, and the machine right
after reset (10 R45, 70 R230). -/

namespace Sys2Proof.Machine

/-- The seven fault kinds of 60 R200. -/
inductive FaultKind where
  | unknownOpcode
  | memoryRange
  | registerIndex
  | stackUnderflow
  | stackOverflow
  | callTarget
  | inputUnavailable
  deriving DecidableEq, Repr

/-- The run state (10 R35). -/
inductive RunState where
  | running
  | halted
  | faulted
  deriving DecidableEq, Repr

/-- The fault record, field by field as 10 R36 gives it. -/
structure FaultRecord where
  kind : FaultKind
  /-- the number of the kind (60 R200) -/
  code : Byte
  /-- the opcode byte, absent only when its own fetch faulted -/
  opcode : Option Byte
  /-- the address of the opcode byte of the faulting instruction -/
  pc0 : Pc
  /-- the bad address, the bad register index, the bad opcode, or 0 -/
  info : Word
  deriving DecidableEq, Repr

/-- What a statement of a rule's pseudocode raises: `raise K(info)` (00 R10, 60 R203). -/
structure Trap where
  kind : FaultKind
  info : Word
  deriving DecidableEq, Repr

/-- The memory array as (address, byte) pairs in one canonical form: addresses strictly rising, no byte equal to what an
unlisted address reads as (Machine/Ops.lean, `Memory.wf`). -/
abbrev Memory := List Host.Cell

/-- The state: one field for each row of 10 R20, and `cfg`, the parameters of 00 R7, which no step writes
(notes/assumptions/1.md). -/
structure State where
  /-- `X[0]` to `X[14]` (10 R21) -/
  regs : Vector Word 15
  /-- the program counter (10 R27) -/
  pc : Pc
  /-- the memory array (20 R50) -/
  mem : Memory
  /-- the stack, top last (10 R20, R31) -/
  stack : List Word
  /-- the run state (10 R35) -/
  run : RunState
  /-- the fault record, absent while no fault has happened (10 R36) -/
  fault : Option FaultRecord
  /-- the bytes TX has sent, oldest first (10 R37) -/
  out : List Byte
  /-- the bytes RX has not taken, next first (10 R37) -/
  inp : List Byte
  /-- the parameters the machine was built with (00 R7) -/
  cfg : Config
  deriving DecidableEq, Repr

/-- Why the model's step has no next state. The machine's own faults are no outcome of this kind: they are next states,
run state Faulted, with the fault record written (60 R203). -/
inductive Fault where
  /-- Raised by `step` when the run state is Halted or Faulted: "A step exists only while the run state is Running"
  (10 R35). Safe: the machine takes no step there either (notes/assumptions/7.md). -/
  | notRunning
  deriving DecidableEq, Repr

/-- Why the model gives an instruction no meaning. -/
inductive Refusal where
  /-- Raised by an arm of `exec` for an instruction that has no meaning yet. Safe: nothing is claimed of it. No arm
  raises it: all 25 instructions have their meaning. -/
  | notModelled (mnemonic : String)
  deriving DecidableEq, Repr

/-- The machine right after reset, with no image loaded and the defaults of 00 R7 (10 R45): pc 0, Running, stack and
output empty, no fault; every register `INIT_REGS` = 0 (notes/assumptions/2.md, unsafe), no byte of memory listed,
so every byte `INIT_MEM` = 0 (notes/assumptions/3.md, unsafe), no input byte yet (notes/assumptions/5.md). -/
def State.reset : State :=
  { regs := Vector.replicate 15 0
    pc := Config.resetPc
    mem := []
    stack := []
    run := .running
    fault := none
    out := []
    inp := []
    cfg := Config.default }

end Sys2Proof.Machine
end

