-- ==== Sys2Proof/Machine/Ops.lean ====
section
/-! DEFINITION. The named operations over the state: memory (spec/20_memory.md rules R50 to R53), the program counter
(10 R27 to R29), the stack unit (10 R31 to R33), the byte channels (10 R37 to R39), taking a fault (60 R203) and the
frame that every instruction rule shares (00 R11). An operation that can raise answers `Except Trap`. -/

namespace Sys2Proof.Machine

/-! ### Memory as data -/

/-- What an unlisted address reads as: the default of `INIT_MEM` (00 R7, 10 R45; notes/assumptions/3.md). -/
def Memory.unlisted : Byte := 0

/-- The byte at an address. -/
def Memory.read : Memory → Nat → Byte
  | [], _ => Memory.unlisted
  | (k, b) :: m, a => if k = a then b else Memory.read m a

/-- The memory with one byte changed, in canonical form. -/
def Memory.write : Memory → Nat → Byte → Memory
  | [], a, v => if v = Memory.unlisted then [] else [(a, v)]
  | (k, b) :: m, a, v =>
    if a < k then (if v = Memory.unlisted then (k, b) :: m else (a, v) :: (k, b) :: m)
    else if a = k then (if v = Memory.unlisted then m else (a, v) :: m)
    else (k, b) :: Memory.write m a v

/-- Bytes written at consecutive addresses from `a` upward. -/
def Memory.writeList : Memory → Nat → List Byte → Memory
  | m, _, [] => m
  | m, a, b :: bs => Memory.writeList (Memory.write m a b) (a + 1) bs

/-- The canonical form: addresses strictly rising, no entry equal to what an unlisted address reads as. -/
abbrev Memory.wf (m : Memory) : Prop :=
  List.Pairwise (fun x y : Host.Cell => x.1 < y.1) m ∧ ∀ c ∈ m, c.2 ≠ Memory.unlisted

/-- Every listed address is allocated: below `MEM_SIZE` (20 R50). -/
abbrev Memory.within (m : Memory) (size : Nat) : Prop := ∀ c ∈ m, c.1 < size

/-! ### The fields one at a time -/

def State.setReg (s : State) (i : Fin 15) (v : Word) : State := { s with regs := s.regs.set i.val v i.isLt }
def State.setPc (s : State) (p : Pc) : State := { s with pc := p }
def State.setMem (s : State) (m : Memory) : State := { s with mem := m }
def State.setStack (s : State) (st : List Word) : State := { s with stack := st }
def State.setOut (s : State) (o : List Byte) : State := { s with out := o }
def State.setInp (s : State) (i : List Byte) : State := { s with inp := i }

/-- `halt`: the run state becomes Halted (00 R10, 46 R193). -/
def State.halt (s : State) : State := { s with run := .halted }

/-! ### Taking a fault -/

/-- The numbers of the fault kinds (60 R200). -/
def FaultKind.code : FaultKind → Byte
  | .unknownOpcode => 1
  | .memoryRange => 2
  | .registerIndex => 3
  | .stackUnderflow => 4
  | .stackOverflow => 5
  | .callTarget => 6
  | .inputUnavailable => 7

/-- The record a fault writes (60 R203): `pc0` is the pc at the start of the step. -/
def faultRecord (pc0 : Pc) (op : Option Byte) (e : Trap) : FaultRecord :=
  { kind := e.kind, code := e.kind.code, opcode := op, pc0 := pc0, info := e.info }

/-- Taking a fault (60 R203), from the state at the START of the step: X, mem, stack, out and inp stay as they were,
the record is written, the run state becomes Faulted. "The value of `pc` after a fault is not defined": a free value
(notes/assumptions/6.md). There is no return from a fault (60 R206). -/
def raise (s : State) (op : Option Byte) (e : Trap) : State :=
  { s with
    run := .faulted
    fault := some (faultRecord s.pc op e)
    pc := Config.pcAfterFault e.kind.code op s.pc e.info }

/-! ### The program counter -/

/-- `pc <- target`: the low 32 bits, no check of any kind (10 R29, D6). -/
def jumpTo (s : State) (target : Word) : State := s.setPc (target.setWidth 32)

/-- The program counter `n` fetched bytes on, mod 2^32 (10 R28, D5). -/
def advance (s : State) (n : Nat) : State := s.setPc (s.pc + BitVec.ofNat 32 n)

/-- The state an instruction's pseudocode acts on once all its bytes are fetched: `pc = (pc0 + len) mod 2^32`
(30 R89, 43 R160). -/
def afterFetch (o : Opcode) (s : State) : State := advance s o.length

/-! ### The memory interface -/

/-- `MemRead(addr, 1)` (20 R52): all 64 bits are compared. -/
def memRead (s : State) (addr : Word) : Except Trap Byte :=
  if addr.toNat < s.cfg.memSize then .ok (s.mem.read addr.toNat) else .error ⟨.memoryRange, addr⟩

/-- `MemWrite(addr, 1, v)` (20 R53): exactly one byte changes. -/
def memWrite (s : State) (addr : Word) (v : Byte) : Except Trap State :=
  if addr.toNat < s.cfg.memSize then .ok (s.setMem (s.mem.write addr.toNat v)) else .error ⟨.memoryRange, addr⟩

/-! ### The stack unit -/

/-- The stack holds `STACK_DEPTH` entries already (10 R32, D11). -/
def stackFull (s : State) : Bool :=
  match s.cfg.stackDepth with
  | none => false
  | some n => decide (n ≤ s.stack.length)

/-- `Push(v)` (10 R32). -/
def pushWord (s : State) (v : Word) : Except Trap State :=
  if stackFull s then .error ⟨.stackOverflow, 0⟩ else .ok (s.setStack (s.stack ++ [v]))

/-- `Pop()` (10 R33): the top entry and the state without it. -/
def popWord (s : State) : Except Trap (Word × State) :=
  match s.stack.getLast? with
  | none => .error ⟨.stackUnderflow, 0⟩
  | some v => .ok (v, s.setStack s.stack.dropLast)

/-! ### The byte channels -/

/-- `TxByte(b)` (10 R38): never waits, never faults (D25). -/
def txByte (s : State) (b : Byte) : State := s.setOut (s.out ++ [b])

/-- `RxByte()` (10 R39): the next byte and the state without it; `none` is the wait of `RX_EMPTY_POLICY = block`. -/
def rxByte (s : State) : Except Trap (Option (Byte × State)) :=
  match s.inp with
  | b :: rest => .ok (some (b, s.setInp rest))
  | [] =>
    match s.cfg.rxEmpty with
    | .fault => .error ⟨.inputUnavailable, 0⟩
    | .block => .ok none

/-! ### The call-target check -/

/-- `CALL_TARGETS` is none, or the full 64-bit literal is in it (45 R183, D16). -/
def callAllowed (s : State) (addr : Word) : Bool :=
  match s.cfg.callTargets with
  | none => true
  | some targets => decide (addr ∈ targets)

/-! ### The frame of every instruction rule -/

/-- Running an instruction's pseudocode (00 R11): `body` acts on the state after the fetches; if it raises, the fault is
taken from the state at the start of the step, so nothing the body wrote is kept (60 R203). -/
def runInstr (o : Opcode) (s : State) (body : State → Except Trap State) : Host.Outcome State Fault Refusal :=
  match body (afterFetch o s) with
  | .ok t => .next t
  | .error e => .next (raise s (some o.code) e)

end Sys2Proof.Machine
end

