-- ==== Sys2Proof/Machine/Operands.lean ====
section
/-! DEFINITION. The register operand forms, `x[i]` and `x[i] <- v` (spec/10_state.md rules R22 to R26), for every
8-bit index. The other operand form, the literal, is used exactly as its 64 bits (30 R83). -/

namespace Sys2Proof.Machine

/-- `x[i]` (10 R25): a general register; the pc, zero-extended, as it is at this moment; or RegisterIndexFault(i). -/
def readReg (s : State) (i : Byte) : Except Trap Word :=
  if h : i.toNat < Config.numGpr then .ok (s.regs[i.toNat])
  else if i.toNat = Config.pcIndex then .ok (s.pc.setWidth 64)
  else .error ⟨.registerIndex, i.setWidth 64⟩

/-- `x[i] <- v` (10 R26): a general register; the pc, which keeps bits 31 to 0; or RegisterIndexFault(i). -/
def writeReg (s : State) (i : Byte) (v : Word) : Except Trap State :=
  if h : i.toNat < Config.numGpr then .ok (s.setReg ⟨i.toNat, h⟩ v)
  else if i.toNat = Config.pcIndex then .ok (jumpTo s v)
  else .error ⟨.registerIndex, i.setWidth 64⟩

end Sys2Proof.Machine
end

