-- ==== Sys2Proof/Machine/BasicArith.lean ====
section
/-! DEFINITION. NOP, SET, ADD, SUB (spec/40_basic_arith.md). In every meaning `t` is the state after all the
instruction's bytes are fetched, `s` the state at the start of the step; statement order is the rule's (60 R202). -/

namespace Sys2Proof.Machine

/-- NOP (40 R131). -/
def execNop (s : State) : Host.Outcome State Fault Refusal := runInstr .nop s fun t => .ok t

/-- SET (40 R132). -/
def execSet (d : Byte) (v : Word) (s : State) : Host.Outcome State Fault Refusal :=
  runInstr .set s fun t => writeReg t d v

/-- ADD (40 R133). -/
def execAdd (d a b : Byte) (s : State) : Host.Outcome State Fault Refusal :=
  runInstr .add s fun t => do
    let va ← readReg t a
    let vb ← readReg t b
    writeReg t d (wrapAdd va vb)

/-- SUB (40 R134). -/
def execSub (d a b : Byte) (s : State) : Host.Outcome State Fault Refusal :=
  runInstr .sub s fun t => do
    let va ← readReg t a
    let vb ← readReg t b
    writeReg t d (wrapSub va vb)

end Sys2Proof.Machine
end

