-- ==== Sys2Proof/Machine/CallReturn.lean ====
section
/-! DEFINITION. CALL, RET (spec/45_call_return.md). -/

namespace Sys2Proof.Machine

/-- CALL (45 R181): the entry pushed is `(pc0 + 9) mod 2^32`, zero-extended (45 R180). -/
def execCall (addr : Word) (s : State) : Host.Outcome State Fault Refusal :=
  runInstr .call s fun t =>
    if callAllowed t addr then do
      let t' ← pushWord t (t.pc.setWidth 64)
      .ok (jumpTo t' addr)
    else .error ⟨.callTarget, addr⟩

/-- RET (45 R182). -/
def execRet (s : State) : Host.Outcome State Fault Refusal :=
  runInstr .ret s fun t => do
    let (v, t') ← popWord t
    .ok (jumpTo t' v)

end Sys2Proof.Machine
end

