-- ==== Sys2Proof/Machine/IoHalt.lean ====
section
/-! DEFINITION. TX, RX, HLT (spec/46_io_halt.md). -/

namespace Sys2Proof.Machine

/-- TX (46 R191). -/
def execTx (r : Byte) (s : State) : Host.Outcome State Fault Refusal :=
  runInstr .tx s fun t => do
    let v ← readReg t r
    .ok (txByte t (v.setWidth 8))

/-- RX (46 R192). While it waits (`RX_EMPTY_POLICY = block`, no byte) the state is the one at the start of the step,
unchanged (10 R39; notes/assumptions/9.md). -/
def execRx (d : Byte) (s : State) : Host.Outcome State Fault Refusal :=
  runInstr .rx s fun t => do
    match ← rxByte t with
    | none => .ok s
    | some (b, t') => writeReg t' d (b.setWidth 64)

/-- HLT (46 R193). -/
def execHlt (s : State) : Host.Outcome State Fault Refusal := runInstr .hlt s fun t => .ok t.halt

end Sys2Proof.Machine
end

