-- ==== Sys2Proof/Machine/Flags.lean ====
section
/-! DEFINITION. The machine has no flags, no condition codes and no predicate registers (spec/10_state.md rule R30): no
instruction computes one. What takes their place is the comparison of the conditional jumps (43 R162), written
here. -/

namespace Sys2Proof.Machine

/-- The relation of a conditional jump (43 R162). -/
inductive Relation where
  | lt
  | le
  | gt
  | ge
  | eq
  | ne
  deriving DecidableEq, Repr

/-- The relation of two 64-bit values as unsigned integers, over all 64 bits (43 R162, D13). -/
def relationHolds (r : Relation) (a b : Word) : Bool :=
  match r with
  | .lt => decide (a.toNat < b.toNat)
  | .le => decide (a.toNat ≤ b.toNat)
  | .gt => decide (b.toNat < a.toNat)
  | .ge => decide (b.toNat ≤ a.toNat)
  | .eq => decide (a = b)
  | .ne => decide (a ≠ b)

end Sys2Proof.Machine
end

