-- ==== Sys2Proof/Machine/Jump.lean ====
section
/-! DEFINITION. JMP, the six conditional jumps, JPR (spec/43_jump.md). -/

namespace Sys2Proof.Machine

/-- JMP (43 R161). -/
def execJmp (addr : Word) (s : State) : Host.Outcome State Fault Refusal :=
  runInstr .jmp s fun t => .ok (jumpTo t addr)

/-- `Jcc(rel)` (43 R162): both registers are read whether or not the jump is taken. -/
def jumpIf (r : Relation) (a b : Byte) (addr : Word) (t : State) : Except Trap State := do
  let va ← readReg t a
  let vb ← readReg t b
  .ok (if relationHolds r va vb then jumpTo t addr else t)

/-- JLT (43 R163). -/
def execJlt (a b : Byte) (addr : Word) (s : State) : Host.Outcome State Fault Refusal :=
  runInstr .jlt s (jumpIf .lt a b addr)

/-- JLE (43 R164). -/
def execJle (a b : Byte) (addr : Word) (s : State) : Host.Outcome State Fault Refusal :=
  runInstr .jle s (jumpIf .le a b addr)

/-- JGT (43 R165). -/
def execJgt (a b : Byte) (addr : Word) (s : State) : Host.Outcome State Fault Refusal :=
  runInstr .jgt s (jumpIf .gt a b addr)

/-- JGE (43 R166). -/
def execJge (a b : Byte) (addr : Word) (s : State) : Host.Outcome State Fault Refusal :=
  runInstr .jge s (jumpIf .ge a b addr)

/-- JEQ (43 R167). -/
def execJeq (a b : Byte) (addr : Word) (s : State) : Host.Outcome State Fault Refusal :=
  runInstr .jeq s (jumpIf .eq a b addr)

/-- JNE (43 R168). -/
def execJne (a b : Byte) (addr : Word) (s : State) : Host.Outcome State Fault Refusal :=
  runInstr .jne s (jumpIf .ne a b addr)

/-- JPR (43 R169). -/
def execJpr (p : Byte) (s : State) : Host.Outcome State Fault Refusal :=
  runInstr .jpr s fun t => do
    let v ← readReg t p
    .ok (jumpTo t v)

end Sys2Proof.Machine
end

