-- ==== Sys2Proof/Machine/LoadStore.lean ====
section
/-! DEFINITION. LD, STO, LDR, STR (spec/41_load_store.md): one byte, zero-extended by a load, the low byte of the
register in a store (rule R140). -/

namespace Sys2Proof.Machine

/-- LD (41 R141). -/
def execLd (d : Byte) (addr : Word) (s : State) : Host.Outcome State Fault Refusal :=
  runInstr .ld s fun t => do
    let b ← memRead t addr
    writeReg t d (b.setWidth 64)

/-- STO (41 R142). -/
def execSto (r : Byte) (addr : Word) (s : State) : Host.Outcome State Fault Refusal :=
  runInstr .sto s fun t => do
    let v ← readReg t r
    memWrite t addr (v.setWidth 8)

/-- LDR (41 R143). -/
def execLdr (d p : Byte) (s : State) : Host.Outcome State Fault Refusal :=
  runInstr .ldr s fun t => do
    let addr ← readReg t p
    let b ← memRead t addr
    writeReg t d (b.setWidth 64)

/-- STR (41 R144). -/
def execStr (r p : Byte) (s : State) : Host.Outcome State Fault Refusal :=
  runInstr .str s fun t => do
    let v ← readReg t r
    let addr ← readReg t p
    memWrite t addr (v.setWidth 8)

end Sys2Proof.Machine
end

