-- ==== Sys2Proof/Machine/Shift.lean ====
section
/-! DEFINITION. LSL, LSR (spec/42_shift.md). -/

namespace Sys2Proof.Machine

/-- LSL (42 R151). -/
def execLsl (d m : Byte) (s : State) : Host.Outcome State Fault Refusal :=
  runInstr .lsl s fun t => do
    let v ← readReg t d
    let n ← readReg t m
    writeReg t d (shiftLeft v n)

/-- LSR (42 R152). -/
def execLsr (d m : Byte) (s : State) : Host.Outcome State Fault Refusal :=
  runInstr .lsr s fun t => do
    let v ← readReg t d
    let n ← readReg t m
    writeReg t d (shiftRight v n)

end Sys2Proof.Machine
end

