-- ==== Sys2Proof/Machine/Stack.lean ====
section
/-! DEFINITION. PUSH, POP (spec/44_stack.md). -/

namespace Sys2Proof.Machine

/-- PUSH (44 R176). -/
def execPush (r : Byte) (s : State) : Host.Outcome State Fault Refusal :=
  runInstr .push s fun t => do
    let v ← readReg t r
    pushWord t v

/-- POP (44 R177). -/
def execPop (d : Byte) (s : State) : Host.Outcome State Fault Refusal :=
  runInstr .pop s fun t => do
    let (v, t') ← popWord t
    writeReg t' d v

end Sys2Proof.Machine
end

