-- ==== Sys2Proof/Machine/Dispatch.lean ====
section
/-! DEFINITION. One arm per instruction of spec/30_encoding.md rule R86. `exec i s` is the step of the instruction `i`
from the state `s` in which `pc` is the address of its opcode byte. -/

namespace Sys2Proof.Machine

def exec (i : Instr) (s : State) : Host.Outcome State Fault Refusal :=
  match i with
  | .nop => Sys2Proof.Machine.execNop s
  | .set d v => Sys2Proof.Machine.execSet d v s
  | .add d a b => Sys2Proof.Machine.execAdd d a b s
  | .sub d a b => Sys2Proof.Machine.execSub d a b s
  | .ld d addr => Sys2Proof.Machine.execLd d addr s
  | .sto r addr => Sys2Proof.Machine.execSto r addr s
  | .ldr d p => Sys2Proof.Machine.execLdr d p s
  | .str r p => Sys2Proof.Machine.execStr r p s
  | .lsl d m => Sys2Proof.Machine.execLsl d m s
  | .lsr d m => Sys2Proof.Machine.execLsr d m s
  | .jmp addr => Sys2Proof.Machine.execJmp addr s
  | .jlt a b addr => Sys2Proof.Machine.execJlt a b addr s
  | .jle a b addr => Sys2Proof.Machine.execJle a b addr s
  | .jgt a b addr => Sys2Proof.Machine.execJgt a b addr s
  | .jge a b addr => Sys2Proof.Machine.execJge a b addr s
  | .jeq a b addr => Sys2Proof.Machine.execJeq a b addr s
  | .jne a b addr => Sys2Proof.Machine.execJne a b addr s
  | .jpr p => Sys2Proof.Machine.execJpr p s
  | .push r => Sys2Proof.Machine.execPush r s
  | .pop d => Sys2Proof.Machine.execPop d s
  | .call addr => Sys2Proof.Machine.execCall addr s
  | .ret => Sys2Proof.Machine.execRet s
  | .tx r => Sys2Proof.Machine.execTx r s
  | .rx d => Sys2Proof.Machine.execRx d s
  | .hlt => Sys2Proof.Machine.execHlt s

end Sys2Proof.Machine
end

