-- ==== Sys2Proof/Machine/Fetch.lean ====
section
/-! DEFINITION. Instruction fetch: `Fetch8`, `Fetch64` (spec/20_memory.md rules R54, R55) and the front part of every
step (30 R88, R89). -/

namespace Sys2Proof.Machine

/-- `Fetch8()` (20 R54): the byte at the pc and the state with the pc one further, mod 2^32. -/
def fetch8 (s : State) : Except Trap (Byte × State) :=
  if s.pc.toNat < s.cfg.memSize then .ok (s.mem.read s.pc.toNat, advance s 1)
  else .error ⟨.memoryRange, s.pc.setWidth 64⟩

/-- `n` `Fetch8()` in a row; if one faults, that fault is the result. -/
def fetchBytes : Nat → State → Except Trap (List Byte × State)
  | 0, s => .ok ([], s)
  | n + 1, s =>
    match fetch8 s with
    | .error e => .error e
    | .ok (b, s1) =>
      match fetchBytes n s1 with
      | .error e => .error e
      | .ok (bs, s2) => .ok (b :: bs, s2)

/-- `Fetch64()` (20 R55): eight bytes, the first the most significant. -/
def fetch64 (s : State) : Except Trap (Word × State) :=
  match fetchBytes 8 s with
  | .error e => .error e
  | .ok (bs, t) => .ok (wordOfBytes bs, t)

/-- `Fetch32()`, which no instruction uses: four bytes, the first the most significant, eight bits a byte (20 R57,
D24). -/
def fetch32 (s : State) : Except Trap (BitVec 32 × State) :=
  match fetchBytes 4 s with
  | .error e => .error e
  | .ok (bs, t) => .ok ((wordOfBytes bs).setWidth 32, t)

/-- A fault of the front part of a step: the opcode byte, where it was fetched, and what is raised. -/
structure FetchFault where
  opcode : Option Byte
  trap : Trap
  deriving DecidableEq, Repr

/-- The front part of a step (30 R88, R89): the opcode byte, its decoding, then all the operand bytes in address order;
no operand byte is fetched for an unknown opcode (30 R91). -/
def fetchInstr (s : State) : Except FetchFault Instr :=
  match fetch8 s with
  | .error e => .error ⟨none, e⟩
  | .ok (op, s1) =>
    match decodeOpcode op with
    | none => .error ⟨some op, ⟨.unknownOpcode, op.setWidth 64⟩⟩
    | some o =>
      match fetchBytes o.format.operandBytes s1 with
      | .error e => .error ⟨some op, e⟩
      | .ok (bs, _) => .ok (o.instr bs)

/-- Bytes stored where the next instruction is fetched: from the pc upward, mod 2^32; a byte that would lie outside the
allocated memory is dropped. -/
def placeAt (size : Nat) : Memory → Pc → List Byte → Memory
  | m, _, [] => m
  | m, p, b :: bs => placeAt size (if p.toNat < size then m.write p.toNat b else m) (p + 1) bs

/-- The state in which the bytes `bs` are what the next step fetches: stored at the pc, and the machine Running with no
fault record, since a step exists only then (10 R35, R36; notes/assumptions/8.md). -/
def placeInstr (s : State) (bs : List Byte) : State :=
  { s with mem := placeAt s.cfg.memSize s.mem s.pc bs, run := .running, fault := none }

end Sys2Proof.Machine
end

