-- ==== Sys2Proof/Machine/Step.lean ====
section
/-! DEFINITION. One step of the machine (spec/30_encoding.md rule R88, 10_state.md rule R35). -/

namespace Sys2Proof.Machine

/-- One step: fetch and decode the instruction at the pc, then its meaning; a fault of the front part is taken like any
other. A step exists only while the run state is Running (10 R35; notes/assumptions/7.md). -/
def step (s : State) : Host.Outcome State Fault Refusal :=
  match s.run with
  | .running =>
    match fetchInstr s with
    | .ok i => exec i s
    | .error f => .next (raise s f.opcode f.trap)
  | .halted => .fault .notRunning
  | .faulted => .fault .notRunning

/-- `s` with the instruction of a word of spec/opcode_table.json stored where `step` fetches next. -/
def State.withFetchWord (s : State) (nbits w : Nat) : State := placeInstr s (tableWordBytes nbits w)

end Sys2Proof.Machine
end

