-- ==== Sys2Proof/Machine/Assembler.lean ====
section
/-! DEFINITION. The assembler of spec/30_encoding.md section 6 (rules R95 to R106): from source lines to a program
image. It is software outside the hardware block (00 R4); it is here because the image it emits is what the machine
loads (20 R61, R62). Text is a list of characters. -/

namespace Sys2Proof.Machine

/-- A token: a non-empty list of characters (30 R95). -/
abbrev Token := List Char

/-- The two fatal errors of 30 R106. -/
inductive AsmError where
  | badRegister (token : Token)
  | undeclaredFunction (name : Token)
  deriving DecidableEq, Repr

/-- A directive that takes the next token as its operand (30 R99, R100). -/
inductive Pending where
  | functionName
  | callTarget
  deriving DecidableEq, Repr

/-- The assembler's frame (30 R96): the byte buffer, the function table, newest entry first, and the directive that
waits for its name token. -/
structure AsmState where
  buf : List Byte
  table : List (Token × Nat)
  pending : Option Pending
  deriving DecidableEq, Repr

/-- The tokens of one line, `cur` being the token under construction: a space ends it, `#` abandons the rest of the line
and the token with it, the end of the line ends it (30 R95, D26). -/
def lineTokens : List Char → Token → List Token
  | [], cur => if cur.isEmpty then [] else [cur]
  | c :: cs, cur =>
    if c = '#' then []
    else if c = ' ' then (if cur.isEmpty then [] else [cur]) ++ lineTokens cs []
    else lineTokens cs (cur ++ [c])

/-- The tokenizer (30 R95). -/
def tokenize (lines : List (List Char)) : List Token := lines.flatMap fun l => lineTokens l []

/-- The mnemonics that emit one opcode byte, in lower case, with the two aliases of 90 C1 (30 R97). -/
def mnemonicTable : List (Token × Opcode) :=
  [(['n', 'o', 'p'], .nop), (['s', 'e', 't'], .set), (['a', 'd', 'd'], .add), (['s', 'u', 'b'], .sub),
    (['l', 'd'], .ld), (['s', 't', 'o'], .sto), (['l', 'd', 'r'], .ldr), (['s', 't', 'r'], .str)] ++
  [(['l', 's', 'l'], .lsl), (['l', 's', 'r'], .lsr), (['j', 'm', 'p'], .jmp), (['j', 'l', 't'], .jlt),
    (['j', 'l', 'e'], .jle), (['j', 'g', 't'], .jgt), (['j', 'g', 'e'], .jge), (['j', 'e', 'q'], .jeq)] ++
  [(['j', 'n', 'e'], .jne), (['j', 'p', 'r'], .jpr), (['p', 'u', 's', 'h'], .push), (['p', 'o', 'p'], .pop),
    (['r', 'e', 't'], .ret), (['r', 'e', 't', 'u', 'r', 'n'], .ret), (['t', 'x'], .tx), (['r', 'x'], .rx)] ++
  [(['h', 'l', 't'], .hlt), (['h', 'a', 'l', 't'], .hlt)]

/-- The first entry of a table under a key. -/
def lookupToken {α : Type} (key : Token) (table : List (Token × α)) : Option α :=
  (table.find? fun e => e.1 == key).map Prod.snd

/-- The value of one decimal digit. -/
def digitValue (c : Char) : Option Nat := if '0' ≤ c ∧ c ≤ '9' then some (c.toNat - '0'.toNat) else none

/-- The value of a decimal numeral: one digit or more, nothing else (30 R101, R103). -/
def decimalValue : Token → Option Nat
  | [] => none
  | cs => cs.foldl (fun acc c => acc.bind fun n => (digitValue c).map fun d => 10 * n + d) (some 0)

/-- The entry-point directive: a JMP to the end of the buffer, spliced over the first nine bytes (30 R98). -/
def spliceEntry (buf : List Byte) : List Byte :=
  encode (.jmp (BitVec.ofNat 64 buf.length)) ++ buf.drop Config.entrySlot

/-- The keywords of the three directives; `entry` is the spec's notation (30 R98 to R100, D19). -/
def entryKeyword : Token := ['e', 'n', 't', 'r', 'y']
def nameKeyword : Token := ['n', 'a', 'm', 'e']
def callKeyword : Token := ['c', 'a', 'l', 'l']

/-- A token that is neither mnemonic nor directive: a register token, a label token, a literal, or nothing
(30 R101 to R103). `sigil` is `LABEL_SIGIL`. Only the lowercase `r` begins a register token; R101 leaves open whether `R3`
is one, and here it is a token that does not parse and emits nothing (DESIGN CHOICE, notes/assumptions/10.md,
unsafe). -/
def operandBytes (sigil : Char) (tok : Token) : Except AsmError (List Byte) :=
  match tok with
  | 'r' :: digits =>
    match decimalValue digits with
    | some n => if n < 256 then .ok [BitVec.ofNat 8 n] else .error (.badRegister tok)
    | none => .error (.badRegister tok)
  | c :: _ =>
    if c = sigil then .ok []
    else match decimalValue tok with
      | some n => if n < 2 ^ 64 then .ok (bytesOfWord (BitVec.ofNat 64 n)) else .ok []
      | none => .ok []
  | [] => .ok []

/-- One token (30 R96): the operand of a waiting directive, else the first of rules R97 to R103 that applies. -/
def asmToken (sigil : Char) (st : AsmState) (tok : Token) : Except AsmError AsmState :=
  match st.pending with
  | some .functionName => .ok { st with table := (tok, st.buf.length) :: st.table, pending := none }
  | some .callTarget =>
    match lookupToken tok st.table with
    | some k => .ok { st with buf := st.buf ++ bytesOfWord (BitVec.ofNat 64 k), pending := none }
    | none => .error (.undeclaredFunction tok)
  | none =>
    let low := tok.map Char.toLower
    match lookupToken low mnemonicTable with
    | some o => .ok { st with buf := st.buf ++ [o.code] }
    | none =>
      if low = entryKeyword then .ok { st with buf := spliceEntry st.buf }
      else if low = nameKeyword then .ok { st with pending := some .functionName }
      else if low = callKeyword then .ok { st with buf := st.buf ++ [Opcode.call.code], pending := some .callTarget }
      else match operandBytes sigil tok with
        | .ok bs => .ok { st with buf := st.buf ++ bs }
        | .error e => .error e

/-- All the tokens, left to right, one pass (30 R96). -/
def asmTokens (sigil : Char) : AsmState → List Token → Except AsmError AsmState
  | st, [] => .ok st
  | st, tok :: rest =>
    match asmToken sigil st tok with
    | .ok st' => asmTokens sigil st' rest
    | .error e => .error e

/-- The buffer starts as the entry slot, nine zero bytes (30 R96). -/
def asmStart : AsmState := { buf := List.replicate Config.entrySlot 0, table := [], pending := none }

/-- The image of a token sequence, with the trailing HLT of 30 R104. A `call` with no token after it has no target to
resolve; a `name` with none records nothing (notes/assumptions/10.md). -/
def assembleTokens (sigil : Char) (tokens : List Token) : Except AsmError (List Byte) :=
  match asmTokens sigil asmStart tokens with
  | .error e => .error e
  | .ok st =>
    if st.pending = some .callTarget then .error (.undeclaredFunction [])
    else .ok (st.buf ++ [Opcode.hlt.code])

/-- The image of source lines (30 R95, R96). -/
def assemble (sigil : Char) (lines : List (List Char)) : Except AsmError (List Byte) :=
  assembleTokens sigil (tokenize lines)

end Sys2Proof.Machine
end

