-- ==== Sys2Proof/WellFormed.lean ====
section
/-! DEFINITION. The checks of the model's terms. An `Instr` needs no check to be encodable: every byte is a legal register
operand at decode and every 64-bit value a legal literal (spec/30_encoding.md rule R93), and the types hold just those.
What can be checked: that every register operand names a register (10 R23), that the parameters are in range
(00 R7), that an image can be loaded (70 R232). -/

namespace Sys2Proof

/-- The register operands of an instruction, in encoding order (30 R86). -/
def Instr.registerOperands (i : Instr) : List Byte :=
  [i.operands.r1, i.operands.r2, i.operands.r3].take i.opcode.format.numRegs

/-- The byte names a register: 0 to 14, or 15 for the view of the pc (10 R23, R24). -/
def namesRegister (r : Byte) : Bool := decide (r.toNat ≤ Config.pcIndex)

/-- Every register operand names a register, so the instruction raises no RegisterIndexFault (10 R23). -/
def Instr.registersNamed (i : Instr) : Bool := i.registerOperands.all namesRegister

/-- 9 <= MEM_SIZE <= 2^64 (00 R7, 20 R51). -/
def Config.wf (c : Config) : Bool := decide (Config.entrySlot ≤ c.memSize) && decide (c.memSize ≤ 2 ^ 64)

/-- The host loads only an image of 9 to MEM_SIZE bytes (70 R232). -/
def imageLoadable (c : Config) (image : List Byte) : Bool :=
  decide (Config.entrySlot ≤ image.length) && decide (image.length ≤ c.memSize)

end Sys2Proof
end

