-- ==== Sys2Proof/Machine/HostView.lean ====
section
/-! DEFINITION. What the host does to the machine and what it reads of it (spec/10_state.md rules R37, R43, R44;
70_reset_and_hazards.md rules R230, R232). Stopping a run is not stepping the machine again (60 R209): no operation. -/

namespace Sys2Proof.Machine

/-- `reset(image)` (70 R230): every state at its reset value with the image at address 0, `INIT_MEM` above it and
`INIT_REGS` in the registers; `inp` belongs to the host and is not changed. `none` where the host must refuse the image
(70 R232). -/
def bootImage (initRegs : Vector Word 15) (initMem : Memory) (image : List Byte) (s : State) : Option State :=
  if imageLoadable s.cfg image then
    some
      { regs := initRegs
        pc := Config.resetPc
        mem := Memory.writeList (initMem.filter fun c => decide (c.1 < s.cfg.memSize)) 0 image
        stack := []
        run := .running
        fault := none
        out := []
        inp := s.inp
        cfg := s.cfg }
  else none

/-- The host adds bytes to the input channel (10 R37, R39). -/
def supplyInput (s : State) (bs : List Byte) : State := s.setInp (s.inp ++ bs)

/-- What the host receives at the end of a run (10 R43, D23). -/
inductive RunResult where
  /-- Halted: the "final register/memory snapshot" and the bytes sent. -/
  | snapshot (regs : Vector Word 15) (pc : Pc) (mem : Memory) (out : List Byte)
  /-- Faulted: the "fault description" and the bytes sent (60 R204). -/
  | faultReport (record : FaultRecord) (out : List Byte)
  deriving DecidableEq, Repr

/-- The result of a run, `none` while the machine is Running (10 R43, 70 R235). -/
def runResult (s : State) : Option RunResult :=
  match s.run with
  | .running => none
  | .halted => some (.snapshot s.regs s.pc s.mem s.out)
  | .faulted => s.fault.map fun r => .faultReport r s.out

end Sys2Proof.Machine
end

