-- ==== Sys2Proof/Safety.lean ====
section
/-! DEFINITION. The terms claims use: the invariant of the machine, what each operand form reads and writes when its
index names a register, and the faulted state. -/

namespace Sys2Proof.Machine

/-! ### The invariant -/

/-- The stack holds no more than `STACK_DEPTH` entries (spec/10_state.md rule R32). -/
def stackFits (s : State) : Bool :=
  match s.cfg.stackDepth with
  | none => true
  | some n => decide (s.stack.length ≤ n)

/-- The instructions that may raise a fault of a kind, besides the fetch of their own bytes: the table of 60 R201. -/
def faultAllowed (o : Opcode) (k : FaultKind) : Bool :=
  match k with
  | .unknownOpcode => false
  | .memoryRange => decide (o ∈ [Opcode.ld, .ldr, .sto, .str])
  | .registerIndex => decide (o.format.numRegs ≠ 0)
  | .stackUnderflow => decide (o ∈ [Opcode.pop, .ret])
  | .stackOverflow => decide (o ∈ [Opcode.push, .call])
  | .callTarget => decide (o = .call)
  | .inputUnavailable => decide (o = .rx)

/-- The `info` value belongs to the kind (60 R200): the address out of range, the index above 15, the opcode byte, or
0. -/
def infoFits (c : Config) (r : FaultRecord) : Bool :=
  match r.kind with
  | .unknownOpcode => decide (r.opcode.map (fun op : Byte => op.setWidth 64) = some r.info)
  | .memoryRange => decide (c.memSize ≤ r.info.toNat)
  | .registerIndex => decide (15 < r.info.toNat) && decide (r.info.toNat < 256)
  | .callTarget => c.callTargets.isSome && !(c.callTargets.getD []).contains r.info
  | .stackUnderflow | .stackOverflow | .inputUnavailable => decide (r.info = 0)

/-- The `opcode` field belongs to the kind: absent only when the opcode fetch itself faulted (10 R36), unknown only for
UnknownOpcodeFault (60 R200), otherwise the byte of an instruction that may raise the kind, by its operand fetch or
itself (60 R201). -/
def opcodeFits (r : FaultRecord) : Bool :=
  match r.opcode with
  | none => decide (r.kind = .memoryRange) && decide (r.info = r.pc0.setWidth 64)
  | some op =>
    match decodeOpcode op with
    | none => decide (r.kind = .unknownOpcode)
    | some o => faultAllowed o r.kind || (decide (r.kind = .memoryRange) && decide (1 < o.length))

/-- A fault record as 10 R36 and 60 R200, R201 describe it. -/
def recordFits (c : Config) (r : FaultRecord) : Bool :=
  decide (r.code = r.kind.code) && infoFits c r && opcodeFits r

/-- "The record is absent while the run state is Running or Halted" and present at Faulted (10 R36, 60 R203). -/
def faultAgrees (s : State) : Bool :=
  match s.run, s.fault with
  | .faulted, some r => recordFits s.cfg r
  | .faulted, none => false
  | .running, f => f.isNone
  | .halted, f => f.isNone

/-- What every reachable state satisfies: the parameters in range, the memory canonical and inside the allocated range,
the stack within its depth, the fault record present exactly when Faulted and fitting. -/
abbrev State.Inv (s : State) : Prop :=
  s.cfg.wf = true ∧ s.mem.wf ∧ s.mem.within s.cfg.memSize ∧ stackFits s = true ∧ faultAgrees s = true

/-! ### Operands and results, for indices that name a register -/

/-- The program counter after an instruction that does not transfer control: `(pc0 + len) mod 2^32` (43 R160). -/
def nextPc (o : Opcode) (s : State) : Pc := s.pc + BitVec.ofNat 32 o.length

/-- What an instruction at `s` reads through a register operand 0 to 15: the register, or for index 15 the address of
the next instruction in sequence (10 R25). -/
def regOperand (o : Opcode) (s : State) (r : Byte) : Word :=
  if h : r.toNat < 15 then s.regs[r.toNat] else (nextPc o s).setWidth 64

/-- The state after an instruction at `s` whose one effect is to write `v` to the register operand 0 to 15: a general
register, the pc moving on; or for index 15 the pc, keeping the low 32 bits, and nothing else (10 R26). -/
def withResult (o : Opcode) (s : State) (r : Byte) (v : Word) : State :=
  if h : r.toNat < 15 then { s with regs := s.regs.set r.toNat v h, pc := nextPc o s }
  else { s with pc := v.setWidth 32 }

/-- The state in which `s` has taken the fault `kind(info)` in the instruction with opcode byte `op`: the record
written, Faulted, everything else as before the step, the pc not constrained (60 R203). -/
def FaultedFrom (s t : State) (op : Option Byte) (kind : FaultKind) (info : Word) : Prop :=
  ∃ p : Pc, t = { s with
    run := .faulted
    fault := some { kind := kind, code := kind.code, opcode := op, pc0 := s.pc, info := info }
    pc := p }

/-- The instruction ends in the fault `kind(info)`. -/
def Faults (i : Instr) (s : State) (kind : FaultKind) (info : Word) : Prop :=
  ∃ t, exec i s = .next t ∧ FaultedFrom s t (some i.opcode.code) kind info

/-- The byte of the register operand's index as the 64-bit `info` value (60 R200). -/
def indexInfo (r : Byte) : Word := r.setWidth 64

/-- The register operand an instruction writes, where it has one (the `(w)` and `(rw)` marks of 30 R86). -/
def destination : Instr → Option Byte
  | .set d _ | .add d _ _ | .sub d _ _ | .ld d _ | .ldr d _ | .lsl d _ | .lsr d _ | .pop d | .rx d => some d
  | .nop | .sto _ _ | .str _ _ | .jmp _ | .jlt _ _ _ | .jle _ _ _ | .jgt _ _ _ | .jge _ _ _ | .jeq _ _ _
  | .jne _ _ _ | .jpr _ | .push _ | .call _ | .ret | .tx _ | .hlt => none

/-- The address an instruction at `s` stores to, where it stores: the literal of STO, the pointer of STR
(41 R140, R142, R144). -/
def storeAddress (s : State) : Instr → Option Nat
  | .sto _ addr => some addr.toNat
  | .str _ p => some (regOperand .str s p).toNat
  | .nop | .set _ _ | .add _ _ _ | .sub _ _ _ | .ld _ _ | .ldr _ _ | .lsl _ _ | .lsr _ _ | .jmp _ | .jlt _ _ _
  | .jle _ _ _ | .jgt _ _ _ | .jge _ _ _ | .jeq _ _ _ | .jne _ _ _ | .jpr _ | .push _ | .pop _ | .call _ | .ret
  | .tx _ | .rx _ | .hlt => none

/-- The bytes of `n` consecutive locations from the pc upward, mod 2^32. -/
def bytesAtPc (s : State) (n : Nat) : List Byte :=
  (List.range n).map fun k => s.mem.read (s.pc + BitVec.ofNat 32 k).toNat

/-- The `n` locations from the pc upward, mod 2^32, are all allocated. -/
abbrev allocatedAtPc (s : State) (n : Nat) : Prop := ∀ k < n, (s.pc + BitVec.ofNat 32 k).toNat < s.cfg.memSize

/-- A safe run has taken no fault (60 R203). -/
def State.safe (s : State) : Bool := decide (s.run ≠ .faulted)

end Sys2Proof.Machine
end

