-- ==== Sys2Proof/Certificates/Slice0/Obligations.lean ====
section
/-! DEFINITION. The statements for the provers, in the order of spec/: encoding, fetch and step, the named operations,
the instructions family by family, where they fault, what they leave unchanged, the whole machine. A register operand is
written `namesRegister r`: 0 to 15, the view of the pc included; the indices above have statements of their own. -/

open Sys2Proof Sys2Proof.Machine

/-! ### Encoding -/

/-- 30 R94: every instruction, with every operand value, is read back from its bytes, whatever follows them. -/
def Obligations.DecodeReadsBackEncode : Prop :=
  ∀ (i : Instr) (rest : List Byte), decode (encode i ++ rest) = .ok (i, rest)

/-- 30 R94: what the decoder accepts is the encoding of what it answers, so two different instructions never share
their bytes. -/
def Obligations.DecodedBytesAreTheEncoding : Prop :=
  (∀ (bs : List Byte) (i : Instr) (rest : List Byte), decode bs = .ok (i, rest) → bs = encode i ++ rest) ∧
    ∀ i j : Instr, encode i = encode j → i = j

/-- 30 R82, R86: the length is one byte, one for each register operand and eight for each literal, and it is the
table's. -/
def Obligations.InstructionLengthsAreTheTables : Prop :=
  (∀ i : Instr, (encode i).length = 1 + i.registerOperands.length + 8 * i.opcode.format.numLits) ∧
    (∀ i : Instr, (encode i).length ∈ [1, 2, 3, 4, 9, 10, 11]) ∧
    Opcode.all.map Opcode.length =
      [1, 10, 4, 4, 10, 10, 3, 3, 3, 3, 9, 11, 11, 11, 11, 11, 11, 2, 2, 2, 9, 1, 2, 2, 1] ∧
    ∀ i : Instr, (encode i).length = i.opcode.length ∧ i.opcode ∈ Opcode.all

/-- 95 E2, E3, E8, E13, E21, E25: words written out from the spec's encodings decode to what they stand for. -/
def Obligations.SpecWordsDecode : Prop :=
  decode [0x01, 0x03, 0, 0, 0, 0, 0, 0, 0x01, 0x02] = .ok (.set 3 258, []) ∧
    decode [0x02, 0x02, 0x00, 0x01] = .ok (.add 2 0 1, []) ∧
    decode [0x22, 0x00, 0x01] = .ok (.str 0 1, []) ∧
    decode [0x43, 0x00, 0x01, 0, 0, 0, 0, 0, 0, 0x02, 0x00] = .ok (.jle 0 1 512, []) ∧
    decode [0x61, 0, 0, 0, 0, 0, 0, 0, 0x09] = .ok (.call 9, []) ∧
    decode [0xFF] = .ok (.hlt, [])

/-- 30 R91, R88, 60 R200, R203: the unknown opcodes are the 231 values of the rule's table, and executing one raises UnknownOpcodeFault with
the opcode byte, its own address, and no operand byte fetched (nothing is assumed of the bytes after it). -/
def Obligations.UnknownOpcodesFault : Prop :=
  (∀ b : Byte, decodeOpcode b = none ↔
    (0x04 ≤ b.toNat ∧ b.toNat ≤ 0x10) ∨ (0x13 ≤ b.toNat ∧ b.toNat ≤ 0x20) ∨ (0x23 ≤ b.toNat ∧ b.toNat ≤ 0x30) ∨
      (0x33 ≤ b.toNat ∧ b.toNat ≤ 0x40) ∨ (0x49 ≤ b.toNat ∧ b.toNat ≤ 0x50) ∨ (0x53 ≤ b.toNat ∧ b.toNat ≤ 0x60) ∨
      (0x63 ≤ b.toNat ∧ b.toNat ≤ 0xA0) ∨ (0xA3 ≤ b.toNat ∧ b.toNat ≤ 0xFE)) ∧
    ((List.range 256).filter fun n => (decodeOpcode (BitVec.ofNat 8 n)).isNone).length = 231 ∧
    ∀ s : State, s.run = .running → s.pc.toNat < s.cfg.memSize → decodeOpcode (s.mem.read s.pc.toNat) = none →
      ∃ t, step s = .next t ∧
        FaultedFrom s t (some (s.mem.read s.pc.toNat)) .unknownOpcode ((s.mem.read s.pc.toNat).setWidth 64)

/-! ### Fetch and step -/

/-- 30 R88: when the bytes at the pc decode to an instruction and all lie in the allocated range, a step is that
instruction's meaning at that state, with nothing around it. -/
def Obligations.StepRunsDecodedInstruction : Prop :=
  ∀ (s : State) (i : Instr), s.run = .running → allocatedAtPc s i.length →
    decode (bytesAtPc s i.length) = .ok (i, []) → step s = exec i s

/-- 20 R54, 30 R88: the opcode fetch outside the allocated range faults with no opcode in the record. -/
def Obligations.OpcodeFetchOutOfRangeFaults : Prop :=
  ∀ s : State, s.run = .running → s.cfg.memSize ≤ s.pc.toNat →
    ∃ t, step s = .next t ∧ FaultedFrom s t none .memoryRange (s.pc.setWidth 64)

/-- 60 R202, 20 R54: the first operand byte outside the allocated range faults the step with its address, before any
register is looked at. -/
def Obligations.OperandFetchOutOfRangeFaults : Prop :=
  ∀ (s : State) (o : Opcode) (k : Nat), s.run = .running → allocatedAtPc s k → 0 < k → k < o.length →
    s.mem.read s.pc.toNat = o.code → s.cfg.memSize ≤ (s.pc + BitVec.ofNat 32 k).toNat →
    ∃ t, step s = .next t ∧
      FaultedFrom s t (some o.code) .memoryRange ((s.pc + BitVec.ofNat 32 k).setWidth 64)

/-- 20 R54: one byte at the pc, the pc one further modulo 2^32, nothing else changed; outside the allocated range the
fault with the pc as its address. -/
def Obligations.FetchEightReadsAndAdvances : Prop :=
  ∀ s : State,
    (s.pc.toNat < s.cfg.memSize →
      ∃ p : Pc, p.toNat = (s.pc.toNat + 1) % 2 ^ 32 ∧ fetch8 s = .ok (s.mem.read s.pc.toNat, { s with pc := p })) ∧
      (s.cfg.memSize ≤ s.pc.toNat → fetch8 s = .error ⟨.memoryRange, s.pc.setWidth 64⟩)

/-- 20 R55: eight bytes, the first the most significant; if one of the fetches faults, the whole faults with that
fault. -/
def Obligations.FetchSixtyFourIsBigEndian : Prop :=
  ∀ s : State,
    (allocatedAtPc s 8 →
      ∃ v : Word, fetch64 s = .ok (v, { s with pc := s.pc + 8 }) ∧
        ∀ k < 8, (v.toNat / 256 ^ (7 - k)) % 256 = (s.mem.read (s.pc + BitVec.ofNat 32 k).toNat).toNat) ∧
      ∀ k < 8, allocatedAtPc s k → s.cfg.memSize ≤ (s.pc + BitVec.ofNat 32 k).toNat →
        fetch64 s = .error ⟨.memoryRange, (s.pc + BitVec.ofNat 32 k).setWidth 64⟩

/-! ### The named operations -/

/-- 10 R25: an index below 15 reads its register, 15 the pc of this moment widened with zeros, any other faults; inside
an instruction index 15 reads `(pc0 + len) mod 2^32`. -/
def Obligations.RegisterReadByIndex : Prop :=
  ∀ (s : State) (i : Byte),
    (∀ h : i.toNat ≤ 14, readReg s i = .ok (s.regs[i.toNat])) ∧
      (i.toNat = 15 → readReg s i = .ok (s.pc.setWidth 64)) ∧
      (15 < i.toNat → readReg s i = .error ⟨.registerIndex, i.setWidth 64⟩) ∧
      ∀ o : Opcode, i.toNat = 15 →
        ∃ v, readReg (afterFetch o s) i = .ok v ∧ v.toNat = (s.pc.toNat + o.length) % 2 ^ 32

/-- 10 R26: a write at an index below 15 changes that register alone, at 15 the pc alone, keeping bits 31 to 0; any other
index faults; so a written register reads back, and a write leaves the other registers alone. -/
def Obligations.RegisterWriteByIndex : Prop :=
  ∀ (s : State) (i : Byte) (v : Word),
    (i.toNat ≤ 14 → ∃ t, writeReg s i v = .ok t ∧ readReg t i = .ok v ∧ t = { s with regs := t.regs } ∧
      ∀ j : Fin 15, j.val ≠ i.toNat → t.regs[j.val] = s.regs[j.val]) ∧
      (i.toNat = 15 → ∃ p : Pc, p.toNat = v.toNat % 2 ^ 32 ∧ writeReg s i v = .ok { s with pc := p }) ∧
      (15 < i.toNat → writeReg s i v = .error ⟨.registerIndex, i.setWidth 64⟩)

/-- 10 R22: index 15 is no storage but a view of the pc; a write keeps the low 32 bits; what is written through it is
seen as the pc and the other way round. -/
def Obligations.RegisterFifteenIsThePcView : Prop :=
  ∀ (s : State) (v : Word) (p : Pc),
    readReg s 15 = .ok (s.pc.setWidth 64) ∧
      writeReg s 15 v = .ok { s with pc := v.setWidth 32 } ∧
      (v.toNat < 2 ^ 32 → ∃ t, writeReg s 15 v = .ok t ∧ t.pc.toNat = v.toNat ∧ readReg t 15 = .ok v) ∧
      readReg { s with pc := p } 15 = .ok (p.setWidth 64)

/-- 20 R52: a read compares all 64 bits of the address with `MEM_SIZE` and answers the byte or the fault. -/
def Obligations.MemoryReadChecksRange : Prop :=
  ∀ (s : State) (addr : Word),
    (addr.toNat < s.cfg.memSize → memRead s addr = .ok (s.mem.read addr.toNat)) ∧
      (s.cfg.memSize ≤ addr.toNat → memRead s addr = .error ⟨.memoryRange, addr⟩)

/-- 20 R53: in a canonical memory a write changes exactly the byte addressed, to the value given, and nothing else of
the state; outside the allocated range it faults. -/
def Obligations.MemoryWriteChangesOneByte : Prop :=
  ∀ (s : State) (addr : Word) (v : Byte), s.mem.wf →
    (addr.toNat < s.cfg.memSize →
      ∃ m : Memory, memWrite s addr v = .ok { s with mem := m } ∧ m.wf ∧ m.read addr.toNat = v ∧
        ∀ a, a ≠ addr.toNat → m.read a = s.mem.read a) ∧
      (s.cfg.memSize ≤ addr.toNat → memWrite s addr v = .error ⟨.memoryRange, addr⟩)

/-- 10 R32: a push appends on top unless the stack already holds `STACK_DEPTH` entries; unbounded, it never faults. The
premise is the invariant's: the stack is not deeper than `STACK_DEPTH`. -/
def Obligations.PushRaisesOnlyWhenFull : Prop :=
  ∀ (s : State) (v : Word), stackFits s = true →
    (s.cfg.stackDepth = some s.stack.length → pushWord s v = .error ⟨.stackOverflow, 0⟩) ∧
      (s.cfg.stackDepth ≠ some s.stack.length → pushWord s v = .ok { s with stack := s.stack ++ [v] })

/-- 10 R33: a pop takes the top entry, faults on the empty stack, and undoes a push. -/
def Obligations.PopTakesTheTopEntry : Prop :=
  (∀ s : State, s.stack = [] → popWord s = .error ⟨.stackUnderflow, 0⟩) ∧
    (∀ (s : State) (st : List Word) (v : Word), s.stack = st ++ [v] → popWord s = .ok (v, { s with stack := st })) ∧
    ∀ (s t : State) (v : Word), pushWord s v = .ok t → popWord t = .ok (v, s)

/-- 10 R39: the next input byte; on the empty channel the fault or the wait, by policy. That the wait is a next state
equal to the state before is the model's reading (notes/assumptions/9.md). -/
def Obligations.ReceiveByteByPolicy : Prop :=
  ∀ s : State,
    (∀ (b : Byte) (rest : List Byte), s.inp = b :: rest → rxByte s = .ok (some (b, { s with inp := rest }))) ∧
      (s.inp = [] → s.cfg.rxEmpty = .fault → rxByte s = .error ⟨.inputUnavailable, 0⟩) ∧
      (s.inp = [] → s.cfg.rxEmpty = .block →
        rxByte s = .ok none ∧ ∀ d : Byte, exec (.rx d) s = .next s)

/-! ### NOP, SET, ADD, SUB -/

/-- 40 R131: one zero byte; the pc moves one byte on, modulo 2^32, nothing else changes and no fault of its own is taken;
so a step at any zero byte of memory; a step whose opcode fetch lies outside the allocated range takes that fault. -/
def Obligations.NopOnlyAdvances : Prop :=
  encode .nop = [0x00] ∧
    (∀ s : State, ∃ p : Pc, p.toNat = (s.pc.toNat + 1) % 2 ^ 32 ∧ exec .nop s = .next { s with pc := p }) ∧
    ∀ s : State, s.run = .running →
      (s.pc.toNat < s.cfg.memSize → s.mem.read s.pc.toNat = 0 → step s = .next { s with pc := s.pc + 1 }) ∧
        (s.cfg.memSize ≤ s.pc.toNat →
          ∃ t, step s = .next t ∧ FaultedFrom s t none .memoryRange (s.pc.setWidth 64))

/-- 40 R132: the destination takes the literal (index 15: the pc takes its low 32 bits), nothing else changes. -/
def Obligations.SetWritesLiteral : Prop :=
  ∀ (s : State) (d : Byte) (v : Word), namesRegister d = true → exec (.set d v) s = .next (withResult .set s d v)

/-- 40 R130, R133: the sum modulo 2^64 of the two sources, both read before the destination is written; nothing else
changes. -/
def Obligations.AddWritesWrappedSum : Prop :=
  ∀ (s : State) (d a b : Byte), namesRegister d = true → namesRegister a = true → namesRegister b = true →
    ∃ v : Word, v.toNat = ((regOperand .add s a).toNat + (regOperand .add s b).toNat) % 2 ^ 64 ∧
      exec (.add d a b) s = .next (withResult .add s d v)

/-- 40 R130, R134: the first source minus the second, `2^64` added where it would be negative; nothing else changes. -/
def Obligations.SubWritesWrappedDifference : Prop :=
  ∀ (s : State) (d a b : Byte), namesRegister d = true → namesRegister a = true → namesRegister b = true →
    ∃ v : Word,
      v.toNat = (if (regOperand .sub s b).toNat ≤ (regOperand .sub s a).toNat
        then (regOperand .sub s a).toNat - (regOperand .sub s b).toNat
        else 2 ^ 64 + (regOperand .sub s a).toNat - (regOperand .sub s b).toNat) ∧
      exec (.sub d a b) s = .next (withResult .sub s d v)

/-! ### LD, STO, LDR, STR -/

/-- 41 R140, R141, R143: the byte at the absolute address, or at the address in the pointer register, zero-extended into
the destination; nothing else changes. -/
def Obligations.LoadsWriteZeroExtendedByte : Prop :=
  (∀ (s : State) (d : Byte) (addr : Word), namesRegister d = true → addr.toNat < s.cfg.memSize →
    ∃ v : Word, v.toNat = (s.mem.read addr.toNat).toNat ∧ exec (.ld d addr) s = .next (withResult .ld s d v)) ∧
    ∀ (s : State) (d p : Byte), namesRegister d = true → namesRegister p = true →
      (regOperand .ldr s p).toNat < s.cfg.memSize →
      ∃ v : Word, v.toNat = (s.mem.read (regOperand .ldr s p).toNat).toNat ∧
        exec (.ldr d p) s = .next (withResult .ldr s d v)

/-- 41 R140, R142, R144: the low byte of the register goes to the absolute address, or to the address in the pointer
register; every other byte reads as before, the pc moves on, nothing else changes. -/
def Obligations.StoresWriteLowByte : Prop :=
  (∀ (s : State) (r : Byte) (addr : Word), s.mem.wf → namesRegister r = true → addr.toNat < s.cfg.memSize →
    ∃ m : Memory, exec (.sto r addr) s = .next { s with mem := m, pc := nextPc .sto s } ∧
      (m.read addr.toNat).toNat = (regOperand .sto s r).toNat % 256 ∧
      ∀ a, a ≠ addr.toNat → m.read a = s.mem.read a) ∧
    ∀ (s : State) (r p : Byte), s.mem.wf → namesRegister r = true → namesRegister p = true →
      (regOperand .str s p).toNat < s.cfg.memSize →
      ∃ m : Memory, exec (.str r p) s = .next { s with mem := m, pc := nextPc .str s } ∧
        (m.read (regOperand .str s p).toNat).toNat = (regOperand .str s r).toNat % 256 ∧
        ∀ a, a ≠ (regOperand .str s p).toNat → m.read a = s.mem.read a

/-! ### LSL, LSR -/

/-- 42 R150 to R152: `(v * 2^n) mod 2^64` and `floor(v / 2^n)` for `n` below 64, 0 from 64 on; written back to the
register read first; nothing else changes. -/
def Obligations.ShiftsWriteLogicalResult : Prop :=
  (∀ (s : State) (d m : Byte), namesRegister d = true → namesRegister m = true →
    ∃ v : Word,
      v.toNat = (if (regOperand .lsl s m).toNat < 64
        then (regOperand .lsl s d).toNat * 2 ^ (regOperand .lsl s m).toNat % 2 ^ 64 else 0) ∧
      exec (.lsl d m) s = .next (withResult .lsl s d v)) ∧
    ∀ (s : State) (d m : Byte), namesRegister d = true → namesRegister m = true →
      ∃ v : Word,
        v.toNat = (if (regOperand .lsr s m).toNat < 64
          then (regOperand .lsr s d).toNat / 2 ^ (regOperand .lsr s m).toNat else 0) ∧
        exec (.lsr d m) s = .next (withResult .lsr s d v)

/-! ### Jumps -/

/-- 43 R160, R161, R169: the pc takes the low 32 bits of the literal, or of the pointer register's value; no check of
the target, nothing else changes. -/
def Obligations.JumpsTakeLowTargetBits : Prop :=
  (∀ (s : State) (addr : Word),
    ∃ p : Pc, p.toNat = addr.toNat % 2 ^ 32 ∧ exec (.jmp addr) s = .next { s with pc := p }) ∧
    ∀ (s : State) (r : Byte), namesRegister r = true →
      ∃ p : Pc, p.toNat = (regOperand .jpr s r).toNat % 2 ^ 32 ∧ exec (.jpr r) s = .next { s with pc := p }

/-- 43 R162 to R168: each of the six takes its target exactly when its relation holds of the two values as unsigned
64-bit integers, and otherwise falls through to `(pc0 + 11) mod 2^32`; nothing else changes. -/
def Obligations.ConditionalJumpsFollowTheirRelation : Prop :=
  ∀ (s : State) (a b : Byte) (addr : Word), namesRegister a = true → namesRegister b = true →
    exec (.jlt a b addr) s = .next { s with
      pc := if (regOperand .jlt s a).toNat < (regOperand .jlt s b).toNat then addr.setWidth 32 else s.pc + 11 } ∧
    exec (.jle a b addr) s = .next { s with
      pc := if (regOperand .jle s a).toNat ≤ (regOperand .jle s b).toNat then addr.setWidth 32 else s.pc + 11 } ∧
    exec (.jgt a b addr) s = .next { s with
      pc := if (regOperand .jgt s b).toNat < (regOperand .jgt s a).toNat then addr.setWidth 32 else s.pc + 11 } ∧
    exec (.jge a b addr) s = .next { s with
      pc := if (regOperand .jge s b).toNat ≤ (regOperand .jge s a).toNat then addr.setWidth 32 else s.pc + 11 } ∧
    exec (.jeq a b addr) s = .next { s with
      pc := if (regOperand .jeq s a).toNat = (regOperand .jeq s b).toNat then addr.setWidth 32 else s.pc + 11 } ∧
    exec (.jne a b addr) s = .next { s with
      pc := if (regOperand .jne s a).toNat ≠ (regOperand .jne s b).toNat then addr.setWidth 32 else s.pc + 11 }

/-! ### PUSH, POP, CALL, RET -/

/-- 44 R175, R176: all 64 bits of the register go on top of the stack, where it is not full; nothing else changes. -/
def Obligations.PushAppendsTheRegister : Prop :=
  ∀ (s : State) (r : Byte), namesRegister r = true → stackFull s = false →
    exec (.push r) s = .next { s with stack := s.stack ++ [regOperand .push s r], pc := nextPc .push s }

/-- 44 R175, R177: the top entry, whatever put it there, goes to the destination (index 15: its low 32 bits to the pc)
and leaves the stack; nothing else changes. -/
def Obligations.PopWritesTheTopEntry : Prop :=
  ∀ (s : State) (st : List Word) (v : Word) (d : Byte), s.stack = st ++ [v] → namesRegister d = true →
    exec (.pop d) s = .next { withResult .pop s d v with stack := st }

/-- 45 R180, R181, R183: an accepted target and a stack not full: the return address `(pc0 + 9) mod 2^32`, widened with
zeros, goes on top of the stack and the pc takes the target's low 32 bits; nothing else changes. -/
def Obligations.CallPushesReturnAddress : Prop :=
  ∀ (s : State) (addr : Word), stackFull s = false →
    (∀ targets, s.cfg.callTargets = some targets → addr ∈ targets) →
    ∃ ret : Word, ret.toNat = (s.pc.toNat + 9) % 2 ^ 32 ∧
      exec (.call addr) s = .next { s with stack := s.stack ++ [ret], pc := addr.setWidth 32 }

/-- 45 R182: one byte 0x62; the low 32 bits of the top entry, whatever put it there, become the pc and the entry leaves
the stack; nothing else changes, and no check of the popped address; the empty stack faults. -/
def Obligations.RetJumpsToTheTopEntry : Prop :=
  encode .ret = [0x62] ∧
    (∀ (s : State) (st : List Word) (v : Word), s.stack = st ++ [v] →
      ∃ p : Pc, p.toNat = v.toNat % 2 ^ 32 ∧ exec .ret s = .next { s with stack := st, pc := p }) ∧
    ∀ s : State, s.stack = [] → Faults .ret s .stackUnderflow 0

/-- 45 R180: a RET at any state whose stack is as an executed CALL left it goes to the byte after that CALL's operand
and leaves the stack as it was before the CALL. -/
def Obligations.ReturnUndoesCall : Prop :=
  ∀ (s t u : State) (addr : Word), exec (.call addr) s = .next t → t.run = .running → u.stack = t.stack →
    exec .ret u = .next { u with stack := s.stack, pc := s.pc + 9 }

/-! ### TX, RX, HLT -/

/-- 46 R191, 10 R38: the low byte of the register is added at the end of the output; nothing else changes. -/
def Obligations.TransmitAppendsLowByte : Prop :=
  ∀ (s : State) (r : Byte), namesRegister r = true →
    ∃ b : Byte, b.toNat = (regOperand .tx s r).toNat % 256 ∧
      exec (.tx r) s = .next { s with out := s.out ++ [b], pc := nextPc .tx s }

/-- 46 R192: the next input byte, zero-extended, goes to the destination and leaves the channel; nothing else
changes. -/
def Obligations.ReceiveWritesNextByte : Prop :=
  ∀ (s : State) (b : Byte) (rest : List Byte) (d : Byte), s.inp = b :: rest → namesRegister d = true →
    ∃ v : Word, v.toNat = b.toNat ∧ exec (.rx d) s = .next { withResult .rx s d v with inp := rest }

/-- 46 R193: Halted with the pc one byte on and nothing else changed; there is no further step. That the model answers
`notRunning` there is its own convention (notes/assumptions/7.md). -/
def Obligations.HaltEndsTheRun : Prop :=
  encode .hlt = [0xFF] ∧
    ∀ s : State, exec .hlt s = .next { s with run := .halted, pc := s.pc + 1 } ∧
      step { s with run := .halted, pc := s.pc + 1 } = .fault .notRunning

/-! ### Where the instructions fault -/

/-- 60 R202, 40 R132 to R134, 42 R151, R152: the unnamed register reported by SET, ADD, SUB, LSL, LSR: sources in encoding order, then the destination; LSL and LSR read their
first register. -/
def Obligations.ArithmeticFaultOrder : Prop :=
  ∀ (s : State) (d a b : Byte) (v : Word),
    (namesRegister d = false → Faults (.set d v) s .registerIndex (indexInfo d)) ∧
      (namesRegister a = false → Faults (.add d a b) s .registerIndex (indexInfo a)) ∧
      (namesRegister a = true → namesRegister b = false → Faults (.add d a b) s .registerIndex (indexInfo b)) ∧
      (namesRegister a = true → namesRegister b = true → namesRegister d = false →
        Faults (.add d a b) s .registerIndex (indexInfo d)) ∧
      (namesRegister a = false → Faults (.sub d a b) s .registerIndex (indexInfo a)) ∧
      (namesRegister a = true → namesRegister b = false → Faults (.sub d a b) s .registerIndex (indexInfo b)) ∧
      (namesRegister a = true → namesRegister b = true → namesRegister d = false →
        Faults (.sub d a b) s .registerIndex (indexInfo d)) ∧
      (namesRegister d = false → Faults (.lsl d a) s .registerIndex (indexInfo d)) ∧
      (namesRegister d = true → namesRegister a = false → Faults (.lsl d a) s .registerIndex (indexInfo a)) ∧
      (namesRegister d = false → Faults (.lsr d a) s .registerIndex (indexInfo d)) ∧
      (namesRegister d = true → namesRegister a = false → Faults (.lsr d a) s .registerIndex (indexInfo a))

/-- 60 R202, 41 R141 to R144: the fault LD, STO, LDR, STR take: source registers in encoding order, then the access over all 64 bits of the address, then
the destination. -/
def Obligations.LoadStoreFaultOrder : Prop :=
  ∀ (s : State) (r p : Byte) (addr : Word),
    (s.cfg.memSize ≤ addr.toNat → Faults (.ld r addr) s .memoryRange addr) ∧
      (addr.toNat < s.cfg.memSize → namesRegister r = false →
        Faults (.ld r addr) s .registerIndex (indexInfo r)) ∧
      (namesRegister r = false → Faults (.sto r addr) s .registerIndex (indexInfo r)) ∧
      (namesRegister r = true → s.cfg.memSize ≤ addr.toNat → Faults (.sto r addr) s .memoryRange addr) ∧
      (namesRegister p = false → Faults (.ldr r p) s .registerIndex (indexInfo p)) ∧
      (namesRegister p = true → s.cfg.memSize ≤ (regOperand .ldr s p).toNat →
        Faults (.ldr r p) s .memoryRange (regOperand .ldr s p)) ∧
      (namesRegister p = true → (regOperand .ldr s p).toNat < s.cfg.memSize → namesRegister r = false →
        Faults (.ldr r p) s .registerIndex (indexInfo r)) ∧
      (namesRegister r = false → Faults (.str r p) s .registerIndex (indexInfo r)) ∧
      (namesRegister r = true → namesRegister p = false → Faults (.str r p) s .registerIndex (indexInfo p)) ∧
      (namesRegister r = true → namesRegister p = true → s.cfg.memSize ≤ (regOperand .str s p).toNat →
        Faults (.str r p) s .memoryRange (regOperand .str s p))

/-- 43 R162, R169: the unnamed register the conditional jumps and JPR report: the first register, then the second, whether or not the jump would be taken. -/
def Obligations.JumpFaultOrder : Prop :=
  ∀ (s : State) (a b : Byte) (addr : Word) (i : Instr),
    i ∈ [Instr.jlt a b addr, .jle a b addr, .jgt a b addr, .jge a b addr, .jeq a b addr, .jne a b addr] →
    (namesRegister a = false → Faults i s .registerIndex (indexInfo a) ∧
        Faults (.jpr a) s .registerIndex (indexInfo a)) ∧
      (namesRegister a = true → namesRegister b = false → Faults i s .registerIndex (indexInfo b))

/-- 44 R176, R177, 45 R181 to R183: PUSH the register, then the full stack; POP the empty stack, then the destination,
the entry kept; CALL the target, then the full stack; RET the empty stack. -/
def Obligations.StackFaultOrder : Prop :=
  ∀ (s : State) (r : Byte) (addr : Word) (targets : List Word),
    (namesRegister r = false → Faults (.push r) s .registerIndex (indexInfo r)) ∧
      (namesRegister r = true → stackFull s = true → Faults (.push r) s .stackOverflow 0) ∧
      (s.stack = [] → Faults (.pop r) s .stackUnderflow 0 ∧ Faults .ret s .stackUnderflow 0) ∧
      (s.stack ≠ [] → namesRegister r = false → Faults (.pop r) s .registerIndex (indexInfo r)) ∧
      (s.cfg.callTargets = some targets → addr ∉ targets → Faults (.call addr) s .callTarget addr) ∧
      (s.cfg.callTargets = some targets → addr ∈ targets → stackFull s = true →
        Faults (.call addr) s .stackOverflow 0) ∧
      (s.cfg.callTargets = none → stackFull s = true → Faults (.call addr) s .stackOverflow 0)

/-- 46 R191, R192: TX the register; RX the empty channel under the policy `fault`, then the destination, the byte
kept in the channel. -/
def Obligations.ChannelFaultOrder : Prop :=
  ∀ (s : State) (r : Byte),
    (namesRegister r = false → Faults (.tx r) s .registerIndex (indexInfo r)) ∧
      (s.inp = [] → s.cfg.rxEmpty = .fault → Faults (.rx r) s .inputUnavailable 0) ∧
      (s.inp ≠ [] → namesRegister r = false → Faults (.rx r) s .registerIndex (indexInfo r))

/-! ### What the instructions leave unchanged -/

/-- 30 R86: for every instruction, a register that is not its destination is as before in every next state. -/
def Obligations.OnlyTheDestinationRegisterChanges : Prop :=
  ∀ (i : Instr) (s t : State), exec i s = .next t →
    ∀ j : Fin 15, (∀ d, destination i = some d → d.toNat ≠ j.val) → t.regs[j.val] = s.regs[j.val]

/-- 20 R59: for every instruction, every byte that is not the one it stores to reads as before in every next state. -/
def Obligations.OnlyTheStoredByteChanges : Prop :=
  ∀ (i : Instr) (s t : State), exec i s = .next t →
    ∀ a, storeAddress s i ≠ some a → t.mem.read a = s.mem.read a

/-- 10 R20: only PUSH, POP, CALL and RET change the stack, only TX the output, only RX the input; no instruction
changes the parameters; the run state and the fault record change only by HLT and by a fault. -/
def Obligations.OtherStateChangesOnlyByItsWriters : Prop :=
  ∀ (i : Instr) (s t : State), exec i s = .next t →
    (i.opcode ∉ [Opcode.push, .pop, .call, .ret] → t.stack = s.stack) ∧
      (i.opcode ≠ .tx → t.out = s.out) ∧
      (i.opcode ≠ .rx → t.inp = s.inp) ∧
      t.cfg = s.cfg ∧
      ((t.run = s.run ∧ t.fault = s.fault) ∨ (i = .hlt ∧ t.run = .halted ∧ t.fault = s.fault) ∨
        (t.run = .faulted ∧ t.fault.isSome = true))

/-- 43 R160, 10 R26: an instruction that neither is a jump, CALL, RET nor writes index 15 leaves
`pc = (pc0 + len) mod 2^32`, if it takes no fault and does not wait for input (the wait: notes/assumptions/9.md). -/
def Obligations.OtherInstructionsFallThrough : Prop :=
  ∀ (i : Instr) (s t : State), s.run ≠ .faulted → exec i s = .next t → t.run ≠ .faulted →
    i.opcode ∉ [Opcode.jmp, .jlt, .jle, .jgt, .jge, .jeq, .jne, .jpr, .call, .ret] → destination i ≠ some 15 →
    t.pc = nextPc i.opcode s ∨ (i.opcode = .rx ∧ s.inp = [] ∧ t = s)

/-- 10 R34, 60 R205: no instruction reads the run state, the fault record or the output: two states that differ in them
alone have next states that agree in all else, the pc too unless it is the undefined one after a fault; both outputs
grow by the same bytes; the run state is unchanged in both, Halted in both or Faulted in both; the record is the same
new one in both after a fault and otherwise unchanged in both. -/
def Obligations.NoInstructionReadsRunRecordOrOutput : Prop :=
  ∀ (i : Instr) (s t : State) (r : RunState) (f : Option FaultRecord) (o : List Byte), s.run ≠ .faulted →
    exec i s = .next t →
    ∃ t', exec i { s with run := r, fault := f, out := o } = .next t' ∧
      t'.regs = t.regs ∧ t'.mem = t.mem ∧ t'.stack = t.stack ∧ t'.inp = t.inp ∧ t'.cfg = t.cfg ∧
      (∃ sent, t.out = s.out ++ sent ∧ t'.out = o ++ sent) ∧
      ((t.run = s.run ∧ t'.run = r) ∨ (t.run = .halted ∧ t'.run = .halted) ∨ (t.run = .faulted ∧ t'.run = .faulted)) ∧
      (t.run ≠ .faulted → t'.pc = t.pc ∧ t.fault = s.fault ∧ t'.fault = f) ∧
      (t.run = .faulted → t'.fault = t.fault)

/-! ### The whole machine -/

/-- 60 R203, 10 R36: a step that ends Faulted has changed nothing but the run state, the record and the pc; the record
holds the address the step started at, and the opcode byte there unless its own fetch faulted. -/
def Obligations.FaultKeepsAllButTheRecord : Prop :=
  ∀ s t : State, step s = .next t → t.run = .faulted →
    ∃ (op : Option Byte) (kind : FaultKind) (info : Word), FaultedFrom s t op kind info ∧
      (s.pc.toNat < s.cfg.memSize → op = some (s.mem.read s.pc.toNat)) ∧
      (s.cfg.memSize ≤ s.pc.toNat → op = none)

/-- 60 R200: the seven codes, none of them 0, and the `info` value of the kind in every record a step writes. -/
def Obligations.FaultCodesAndInfo : Prop :=
  [FaultKind.unknownOpcode, .memoryRange, .registerIndex, .stackUnderflow, .stackOverflow, .callTarget,
      .inputUnavailable].map FaultKind.code = [1, 2, 3, 4, 5, 6, 7] ∧
    (∀ k : FaultKind, k.code ≠ 0) ∧
    ∀ (s t : State) (r : FaultRecord), step s = .next t → t.run = .faulted →
      t.fault = some r →
      r.code = r.kind.code ∧
        (r.kind = .unknownOpcode → ∃ op, r.opcode = some op ∧ decodeOpcode op = none ∧ r.info = op.setWidth 64) ∧
        (r.kind = .memoryRange → s.cfg.memSize ≤ r.info.toNat) ∧
        (r.kind = .registerIndex → ∃ i : Byte, 15 < i.toNat ∧ r.info = i.setWidth 64) ∧
        (r.kind = .stackUnderflow → r.info = 0 ∧ s.stack = []) ∧
        (r.kind = .stackOverflow → r.info = 0 ∧ stackFull s = true) ∧
        (r.kind = .callTarget → ∃ targets, s.cfg.callTargets = some targets ∧ r.info ∉ targets) ∧
        (r.kind = .inputUnavailable → r.info = 0 ∧ s.inp = [] ∧ s.cfg.rxEmpty = .fault)

/-- 60 R201: once its bytes are fetched, an instruction raises only the kinds the table gives it: registers by those
with a register operand, memory by the loads and stores, underflow by POP and RET, overflow by PUSH and CALL, the target
check by CALL, the empty channel by RX; NOP, HLT and JMP none. -/
def Obligations.InstructionsRaiseOnlyTheirFaults : Prop :=
  ∀ (i : Instr) (s t : State), s.run ≠ .faulted → exec i s = .next t → t.run = .faulted →
    ∃ r, t.fault = some r ∧
      i.opcode ∉ [Opcode.nop, .hlt, .jmp] ∧
      ((r.kind = .registerIndex ∧ i.registersNamed = false) ∨
        (r.kind = .memoryRange ∧ i.opcode ∈ [Opcode.ld, .ldr, .sto, .str]) ∨
        (r.kind = .stackUnderflow ∧ i.opcode ∈ [Opcode.pop, .ret]) ∨
        (r.kind = .stackOverflow ∧ i.opcode ∈ [Opcode.push, .call]) ∨
        (r.kind = .callTarget ∧ i.opcode = .call) ∨ (r.kind = .inputUnavailable ∧ i.opcode = .rx))

/-- 10 R35, 60 R205: Halted and Faulted are final, no step leaves them. A step leaves the run state Running, or it was
the HLT at the pc and the state is Halted, or it is Faulted. The answer `notRunning` is the model's convention
(notes/assumptions/7.md). -/
def Obligations.RunEndsOnlyByHaltOrFault : Prop :=
  (∀ s : State, s.run ≠ .running → step s = .fault .notRunning) ∧
    ∀ s t : State, s.run = .running → step s = .next t →
      t.run = .running ∨ t.run = .faulted ∨ (t.run = .halted ∧ s.mem.read s.pc.toNat = 0xFF)

/-- 60 R203, R211: a Running machine always has a next state: no instruction is refused, nothing is privileged, a fault
is a next state too. Where RX waits for a byte 10 R39 says that the step does not happen; that the wait counts as a next
state, equal to the state before, is the model's choice (notes/assumptions/9.md). -/
def Obligations.RunningMachineAlwaysSteps : Prop :=
  ∀ s : State, s.run = .running → ∃ t, step s = .next t

/-- 10 R37: at most one channel operation per step: one byte more at the end of the output, or one fewer at the front
of the input, or neither. -/
def Obligations.OneChannelByteAtMost : Prop :=
  ∀ s t : State, step s = .next t →
    (t.out = s.out ∧ t.inp = s.inp) ∨ (t.inp = s.inp ∧ ∃ b, t.out = s.out ++ [b]) ∨
      (t.out = s.out ∧ ∃ b, s.inp = b :: t.inp)

/-- 20 R67: the byte an instruction stored is the byte fetched next, if the pc comes to that address. -/
def Obligations.StoreIsSeenByTheNextFetch : Prop :=
  ∀ (i : Instr) (s t : State), s.mem.wf → s.run = .running → exec i s = .next t → t.run = .running →
    storeAddress s i = some t.pc.toNat →
    ∃ (r : Byte) (v : Word), i.registerOperands.head? = some r ∧ readReg (afterFetch i.opcode s) r = .ok v ∧
      fetch8 t = .ok (v.setWidth 8, { t with pc := t.pc + 1 })

/-- The invariant: parameters in range, memory canonical and inside the allocated range, stack within its depth, the
fault record present exactly when Faulted and fitting its kind. Every step keeps it, from every state. -/
def Obligations.StepKeepsTheInvariant : Prop :=
  ∀ s t : State, s.Inv → step s = .next t → t.Inv

/-- The invariant holds right after reset. The parameters, the input and the memory there are the model's choices
(notes/assumptions/3.md, 4.md, 5.md). -/
def Obligations.ResetMeetsTheInvariant : Prop := State.reset.Inv

/-- 10 R45, 70 R231: the reset values the spec gives: pc 0, so that index 15 reads 0; Running; the stack empty; no fault
record; the output empty. -/
def Obligations.ResetValuesOfTheSpec : Prop :=
  State.reset.pc = 0 ∧ State.reset.run = .running ∧ State.reset.stack = [] ∧ State.reset.fault = none ∧
    State.reset.out = [] ∧ readReg State.reset 15 = .ok 0

/-- 70 R230, R232: `reset(image)`: the image at address 0, `INIT_MEM` above it, `INIT_REGS` in the registers, pc 0,
Running, no fault, stack and output empty, the input as the host left it; nothing else survives; an image shorter than
the entry slot or longer than the memory is refused. -/
def Obligations.BootLoadsTheImage : Prop :=
  ∀ (initRegs : Vector Word 15) (initMem : Memory) (image : List Byte) (s : State), initMem.wf →
    (¬(9 ≤ image.length ∧ image.length ≤ s.cfg.memSize) → bootImage initRegs initMem image s = none) ∧
      (9 ≤ image.length → image.length ≤ s.cfg.memSize →
        ∃ t, bootImage initRegs initMem image s = some t ∧
          (∀ k (h : k < image.length), t.mem.read k = image[k]) ∧
          (∀ k, image.length ≤ k → k < s.cfg.memSize → t.mem.read k = initMem.read k) ∧
          t.regs = initRegs ∧ t.pc = 0 ∧ t.stack = [] ∧ t.run = .running ∧ t.fault = none ∧ t.out = [] ∧
          t.inp = s.inp ∧ t.cfg = s.cfg)

/-- 70 R230: a booted machine meets the invariant, whatever `INIT_REGS`, `INIT_MEM` and the parameters in range are. -/
def Obligations.BootMeetsTheInvariant : Prop :=
  ∀ (initRegs : Vector Word 15) (initMem : Memory) (image : List Byte) (s t : State), initMem.wf →
    s.cfg.wf = true → bootImage initRegs initMem image s = some t → t.Inv

/-- 20 R61, R62, 30 R104: every image the assembler emits ends in HLT and starts with the entry slot, nine NOP bytes or
one JMP; so it is long enough to load. -/
def Obligations.AssembledImagesAreWellFormed : Prop :=
  ∀ (sigil : Char) (lines : List (List Char)) (image : List Byte), assemble sigil lines = .ok image →
    10 ≤ image.length ∧ image.getLast? = some 0xFF ∧
      (image.take 9 = List.replicate 9 0 ∨ ∃ target : Word, image.take 9 = encode (.jmp target))
end

