-- ==== Sys2Proof/Laws/Decode.lean ====
section
/-! SUPPORT. The small laws of the opcode table, the literal's bytes and the operand cut. -/

namespace Sys2Proof

@[simp] theorem bytesOfWord_length (w : Word) : (bytesOfWord w).length = 8 := rfl

/-- The table finds the tag of every opcode byte it holds. -/
@[simp] theorem decodeOpcode_code (o : Opcode) : decodeOpcode o.code = some o := by cases o <;> rfl

/-- A byte that decodes is that tag's opcode byte. -/
theorem code_of_decodeOpcode {b : Byte} {o : Opcode} (h : decodeOpcode b = some o) : o.code = b := by
  have := List.find?_some h
  simpa using this

theorem Opcode.mem_all (o : Opcode) : o ∈ Opcode.all := by cases o <;> decide

@[simp] theorem take_bytesOfWord (w : Word) : (bytesOfWord w).take 8 = bytesOfWord w := rfl

/-- `shiftInByte` is the concatenation the spec writes: the low 56 bits above the new byte. -/
theorem shiftInByte_eq_append (v : Word) (b : Byte) : shiftInByte v b = (v.setWidth 56 ++ b).cast (by decide) := by
  apply BitVec.eq_of_toNat_eq
  have hb := b.isLt
  simp only [shiftInByte, BitVec.toNat_ofNat, BitVec.toNat_cast, BitVec.toNat_append, BitVec.toNat_setWidth,
    Nat.shiftLeft_eq]
  rw [Nat.mul_comm _ (2 ^ 8), ← Nat.two_pow_add_eq_or_of_lt hb]
  omega

/-- The literal's bytes put together again are the literal. -/
@[simp] theorem wordOfBytes_bytesOfWord (w : Word) : wordOfBytes (bytesOfWord w) = w := by
  apply BitVec.eq_of_toNat_eq
  have hw := w.isLt
  simp only [wordOfBytes, bytesOfWord, List.foldl, shiftInByte, BitVec.toNat_ofNat, BitVec.extractLsb'_toNat,
    Nat.shiftRight_eq_div_pow]
  omega

/-- The value of eight bytes: each weighs 256 times the next. -/
theorem wordOfBytes_eight_toNat (b0 b1 b2 b3 b4 b5 b6 b7 : Byte) :
    (wordOfBytes [b0, b1, b2, b3, b4, b5, b6, b7]).toNat =
      b0.toNat * 2 ^ 56 + b1.toNat * 2 ^ 48 + b2.toNat * 2 ^ 40 + b3.toNat * 2 ^ 32 + b4.toNat * 2 ^ 24 +
        b5.toNat * 2 ^ 16 + b6.toNat * 2 ^ 8 + b7.toNat := by
  have h0 := b0.isLt; have h1 := b1.isLt; have h2 := b2.isLt; have h3 := b3.isLt
  have h4 := b4.isLt; have h5 := b5.isLt; have h6 := b6.isLt; have h7 := b7.isLt
  simp only [wordOfBytes, List.foldl, shiftInByte, BitVec.toNat_ofNat]
  omega

/-- Eight bytes are the bytes of the value they make. -/
theorem bytesOfWord_wordOfBytes (bs : List Byte) (h : bs.length = 8) : bytesOfWord (wordOfBytes bs) = bs := by
  match bs, h with
  | [b0, b1, b2, b3, b4, b5, b6, b7], _ =>
    have h0 := b0.isLt; have h1 := b1.isLt; have h2 := b2.isLt; have h3 := b3.isLt
    have h4 := b4.isLt; have h5 := b5.isLt; have h6 := b6.isLt; have h7 := b7.isLt
    have hv := wordOfBytes_eight_toNat b0 b1 b2 b3 b4 b5 b6 b7
    simp only [bytesOfWord, List.cons.injEq, and_true]
    refine ⟨?_, ?_, ?_, ?_, ?_, ?_, ?_, ?_⟩ <;> apply BitVec.eq_of_toNat_eq <;>
      simp only [BitVec.extractLsb'_toNat, hv, Nat.shiftRight_eq_div_pow] <;> omega

/-! ### Formats -/

@[simp] theorem Format.emit_length (f : Format) (o : OperandFields) : (f.emit o).length = f.operandBytes := by
  cases f <;> rfl

/-- Cutting the bytes a format emitted gives back the operands the format has. -/
theorem Format.cut_emit (f : Format) (o : OperandFields) : f.emit (f.cut (f.emit o)) = f.emit o := by
  cases f <;> simp only [Format.emit, Format.cut, List.drop_succ_cons, List.drop_zero, take_bytesOfWord,
    wordOfBytes_bytesOfWord] <;> rfl

/-- Emitting what was cut from a whole operand string gives back the string. -/
theorem Format.emit_cut (f : Format) (bs : List Byte) (h : bs.length = f.operandBytes) : f.emit (f.cut bs) = bs := by
  cases f <;> simp only [Format.operandBytes, Format.numRegs, Format.numLits, Nat.reduceMul, Nat.reduceAdd] at h
  case f0 => simp_all [Format.emit]
  case fr => match bs, h with | [a], _ => rfl
  case frr => match bs, h with | [a, b], _ => rfl
  case frrr => match bs, h with | [a, b, c], _ => rfl
  case fl =>
    simp only [Format.emit, Format.cut]
    rw [List.take_of_length_le (by omega), bytesOfWord_wordOfBytes bs h]
  case frl =>
    match bs, h with
    | a :: rest, h =>
      simp only [List.length_cons] at h
      simp only [Format.emit, Format.cut, List.drop_succ_cons, List.drop_zero]
      rw [List.take_of_length_le (by omega), bytesOfWord_wordOfBytes rest (by omega)]
      rfl
  case frrl =>
    match bs, h with
    | a :: b :: rest, h =>
      simp only [List.length_cons] at h
      simp only [Format.emit, Format.cut, List.drop_succ_cons, List.drop_zero]
      rw [List.take_of_length_le (by omega), bytesOfWord_wordOfBytes rest (by omega)]
      rfl

/-- The instruction a tag builds has that tag. -/
@[simp] theorem Opcode.build_opcode (o : Opcode) (f : OperandFields) : (o.build f).opcode = o := by cases o <;> rfl

/-- The instruction a tag builds has the operands it was built from, as far as its format has them. -/
theorem Opcode.emit_build (o : Opcode) (f : OperandFields) :
    o.format.emit (o.build f).operands = o.format.emit f := by cases o <;> rfl

@[simp] theorem encode_length (i : Instr) : (encode i).length = i.length := by
  simp [encode, Instr.length, Opcode.length, Nat.add_comm]

/-- Putting an instruction's own operands back into its tag gives the instruction. -/
theorem Instr.build_cut_emit (i : Instr) : i.opcode.instr (i.opcode.format.emit i.operands) = i := by
  cases i <;> simp only [Opcode.instr, Opcode.build, Instr.opcode, Opcode.format, Instr.operands, Format.emit,
    Format.cut, List.drop_succ_cons, List.drop_zero, take_bytesOfWord, wordOfBytes_bytesOfWord] <;> rfl

end Sys2Proof
end

