-- ==== Sys2Proof/Laws/Memory.lean ====
section
/-! SUPPORT. The laws of the memory list: a read after a write, and that every operation keeps the canonical form. -/

namespace Sys2Proof.Machine

@[simp] theorem Memory.read_nil (a : Nat) : Memory.read [] a = Memory.unlisted := rfl

/-- An address above every listed one, or simply not listed, reads as unlisted. -/
theorem Memory.read_of_not_listed : ∀ (m : Memory) (a : Nat), (∀ c ∈ m, c.1 ≠ a) → m.read a = Memory.unlisted
  | [], _, _ => rfl
  | (k, b) :: m, a, h => by
    have hk : k ≠ a := h (k, b) (by simp)
    simp only [Memory.read, hk, if_false]
    exact Memory.read_of_not_listed m a fun c hc => h c (by simp [hc])

theorem Memory.wf_nil : Memory.wf [] := by simp [Memory.wf]

theorem Memory.wf_tail {c : Host.Cell} {m : Memory} (h : Memory.wf (c :: m)) : m.wf :=
  ⟨(List.pairwise_cons.1 h.1).2, fun d hd => h.2 d (by simp [hd])⟩

theorem Memory.head_lt {c : Host.Cell} {m : Memory} (h : Memory.wf (c :: m)) : ∀ d ∈ m, c.1 < d.1 :=
  (List.pairwise_cons.1 h.1).1

theorem Memory.wf_cons {c : Host.Cell} {m : Memory} (hc : c.2 ≠ Memory.unlisted) (hlt : ∀ d ∈ m, c.1 < d.1)
    (h : m.wf) : Memory.wf (c :: m) := by
  refine ⟨List.pairwise_cons.2 ⟨hlt, h.1⟩, fun d hd => ?_⟩
  rcases List.mem_cons.1 hd with rfl | hd
  · exact hc
  · exact h.2 d hd

/-- Every entry after a write was there before, or is the one written. -/
theorem Memory.mem_write : ∀ (m : Memory) (a : Nat) (v : Byte) (c : Host.Cell), c ∈ m.write a v → c ∈ m ∨ c = (a, v)
  | [], a, v, c => by
    intro h
    simp only [Memory.write] at h
    split at h <;> simp_all
  | (k, b) :: m, a, v, c => by
    intro h
    simp only [Memory.write] at h
    split at h
    · split at h
      · exact .inl h
      · rcases List.mem_cons.1 h with rfl | h
        · exact .inr rfl
        · exact .inl h
    · split at h
      · split at h
        · exact .inl (by simp [h])
        · rcases List.mem_cons.1 h with rfl | h
          · exact .inr rfl
          · exact .inl (by simp [h])
      · rcases List.mem_cons.1 h with rfl | h
        · exact .inl (by simp)
        · rcases Memory.mem_write m a v c h with h | h
          · exact .inl (by simp [h])
          · exact .inr h

/-- A write keeps the canonical form. -/
theorem Memory.write_wf : ∀ (m : Memory) (a : Nat) (v : Byte), m.wf → (m.write a v).wf
  | [], a, v, _ => by
    simp only [Memory.write]
    split
    · exact Memory.wf_nil
    · exact Memory.wf_cons (by simpa using ‹_›) (by simp) Memory.wf_nil
  | (k, b) :: m, a, v, h => by
    simp only [Memory.write]
    split
    · rename_i hlt
      split
      · exact h
      · rename_i hv
        refine Memory.wf_cons hv (fun d hd => ?_) h
        rcases List.mem_cons.1 hd with rfl | hd
        · exact hlt
        · exact Nat.lt_trans hlt (Memory.head_lt h d hd)
    · split
      · rename_i heq
        split
        · exact Memory.wf_tail h
        · rename_i hv
          exact Memory.wf_cons hv (fun d hd => heq ▸ Memory.head_lt h d hd) (Memory.wf_tail h)
      · rename_i hge hne
        refine Memory.wf_cons (h.2 (k, b) (by simp)) (fun d hd => ?_) (Memory.write_wf m a v (Memory.wf_tail h))
        rcases Memory.mem_write m a v d hd with hd | rfl
        · exact Memory.head_lt h d hd
        · exact Nat.lt_of_le_of_ne (Nat.le_of_not_lt hge) (Ne.symm hne)

/-- A write below the size keeps every listed address below it. -/
theorem Memory.write_within {m : Memory} {a size : Nat} (v : Byte) (h : m.within size) (ha : a < size) :
    (m.write a v).within size := by
  intro c hc
  rcases Memory.mem_write m a v c hc with hc | rfl
  · exact h c hc
  · exact ha

/-- A write leaves every other address as it was, whatever the list. -/
theorem Memory.read_write_other : ∀ (m : Memory) (a a' : Nat) (v : Byte), a' ≠ a → (m.write a v).read a' = m.read a'
  | [], a, a', v, h => by
    simp only [Memory.write]
    split
    · rfl
    · simp [Memory.read, Ne.symm h]
  | (k, b) :: m, a, a', v, h => by
    simp only [Memory.write]
    split
    · split
      · rfl
      · simp [Memory.read, Ne.symm h]
    · split
      · rename_i heq
        have hk : k ≠ a' := fun e => h (by rw [← e, heq])
        split
        · simp [Memory.read, hk]
        · simp [Memory.read, hk, Ne.symm h]
      · simp only [Memory.read]
        split
        · rfl
        · exact Memory.read_write_other m a a' v h

/-- The byte written is the byte read, in canonical form. -/
theorem Memory.read_write_same : ∀ (m : Memory) (a : Nat) (v : Byte), m.wf → (m.write a v).read a = v
  | [], a, v, _ => by
    simp only [Memory.write]
    split
    · simp_all [Memory.read]
    · simp [Memory.read]
  | (k, b) :: m, a, v, h => by
    simp only [Memory.write]
    split
    · rename_i hlt
      split
      · rename_i hv
        rw [hv]
        refine Memory.read_of_not_listed _ a fun c hc => ?_
        rcases List.mem_cons.1 hc with rfl | hc
        · exact Nat.ne_of_gt hlt
        · exact Nat.ne_of_gt (Nat.lt_trans hlt (Memory.head_lt h c hc))
      · simp [Memory.read]
    · split
      · rename_i heq
        split
        · rename_i hv
          rw [hv]
          exact Memory.read_of_not_listed m a fun c hc => Nat.ne_of_gt (heq ▸ Memory.head_lt h c hc)
        · simp [Memory.read]
      · rename_i hge hne
        have hk : k ≠ a := fun e => hne e.symm
        simp only [Memory.read, hk, if_false]
        exact Memory.read_write_same m a v (Memory.wf_tail h)

theorem Memory.writeList_wf : ∀ (bs : List Byte) (m : Memory) (a : Nat), m.wf → (m.writeList a bs).wf
  | [], _, _, h => h
  | b :: bs, m, a, h => Memory.writeList_wf bs (m.write a b) (a + 1) (Memory.write_wf m a b h)

theorem Memory.writeList_within : ∀ (bs : List Byte) (m : Memory) (a size : Nat), m.within size →
    a + bs.length ≤ size → (m.writeList a bs).within size
  | [], _, _, _, h, _ => h
  | b :: bs, m, a, size, h, hl => by
    simp only [List.length_cons] at hl
    exact Memory.writeList_within bs (m.write a b) (a + 1) size (Memory.write_within b h (by omega)) (by omega)

/-- A part of a canonical memory is canonical. -/
theorem Memory.filter_wf (p : Host.Cell → Bool) {m : Memory} (h : m.wf) : Memory.wf (m.filter p) :=
  ⟨h.1.filter p, fun c hc => h.2 c (List.mem_of_mem_filter hc)⟩

/-- The memory at reset is canonical. -/
theorem reset_mem_wf : State.reset.mem.wf := Memory.wf_nil

end Sys2Proof.Machine
end

