-- ==== Sys2Proof/Laws/State.lean ====
section
/-! SUPPORT. What each named update of the state leaves in each field, so that no later proof unfolds a record update. -/

namespace Sys2Proof.Machine

section updates

variable (s : State)

/-! ### `setReg` -/

@[simp] theorem State.setReg_regs (i : Fin 15) (v : Word) : (s.setReg i v).regs = s.regs.set i.val v i.isLt := rfl
@[simp] theorem State.setReg_pc (i : Fin 15) (v : Word) : (s.setReg i v).pc = s.pc := rfl
@[simp] theorem State.setReg_mem (i : Fin 15) (v : Word) : (s.setReg i v).mem = s.mem := rfl
@[simp] theorem State.setReg_stack (i : Fin 15) (v : Word) : (s.setReg i v).stack = s.stack := rfl
@[simp] theorem State.setReg_run (i : Fin 15) (v : Word) : (s.setReg i v).run = s.run := rfl
@[simp] theorem State.setReg_fault (i : Fin 15) (v : Word) : (s.setReg i v).fault = s.fault := rfl
@[simp] theorem State.setReg_out (i : Fin 15) (v : Word) : (s.setReg i v).out = s.out := rfl
@[simp] theorem State.setReg_inp (i : Fin 15) (v : Word) : (s.setReg i v).inp = s.inp := rfl
@[simp] theorem State.setReg_cfg (i : Fin 15) (v : Word) : (s.setReg i v).cfg = s.cfg := rfl

/-! ### `setPc` -/

@[simp] theorem State.setPc_regs (p : Pc) : (s.setPc p).regs = s.regs := rfl
@[simp] theorem State.setPc_pc (p : Pc) : (s.setPc p).pc = p := rfl
@[simp] theorem State.setPc_mem (p : Pc) : (s.setPc p).mem = s.mem := rfl
@[simp] theorem State.setPc_stack (p : Pc) : (s.setPc p).stack = s.stack := rfl
@[simp] theorem State.setPc_run (p : Pc) : (s.setPc p).run = s.run := rfl
@[simp] theorem State.setPc_fault (p : Pc) : (s.setPc p).fault = s.fault := rfl
@[simp] theorem State.setPc_out (p : Pc) : (s.setPc p).out = s.out := rfl
@[simp] theorem State.setPc_inp (p : Pc) : (s.setPc p).inp = s.inp := rfl
@[simp] theorem State.setPc_cfg (p : Pc) : (s.setPc p).cfg = s.cfg := rfl

/-! ### `setMem` -/

@[simp] theorem State.setMem_regs (m : Memory) : (s.setMem m).regs = s.regs := rfl
@[simp] theorem State.setMem_pc (m : Memory) : (s.setMem m).pc = s.pc := rfl
@[simp] theorem State.setMem_mem (m : Memory) : (s.setMem m).mem = m := rfl
@[simp] theorem State.setMem_stack (m : Memory) : (s.setMem m).stack = s.stack := rfl
@[simp] theorem State.setMem_run (m : Memory) : (s.setMem m).run = s.run := rfl
@[simp] theorem State.setMem_fault (m : Memory) : (s.setMem m).fault = s.fault := rfl
@[simp] theorem State.setMem_out (m : Memory) : (s.setMem m).out = s.out := rfl
@[simp] theorem State.setMem_inp (m : Memory) : (s.setMem m).inp = s.inp := rfl
@[simp] theorem State.setMem_cfg (m : Memory) : (s.setMem m).cfg = s.cfg := rfl

/-! ### `setStack` -/

@[simp] theorem State.setStack_regs (st : List Word) : (s.setStack st).regs = s.regs := rfl
@[simp] theorem State.setStack_pc (st : List Word) : (s.setStack st).pc = s.pc := rfl
@[simp] theorem State.setStack_mem (st : List Word) : (s.setStack st).mem = s.mem := rfl
@[simp] theorem State.setStack_stack (st : List Word) : (s.setStack st).stack = st := rfl
@[simp] theorem State.setStack_run (st : List Word) : (s.setStack st).run = s.run := rfl
@[simp] theorem State.setStack_fault (st : List Word) : (s.setStack st).fault = s.fault := rfl
@[simp] theorem State.setStack_out (st : List Word) : (s.setStack st).out = s.out := rfl
@[simp] theorem State.setStack_inp (st : List Word) : (s.setStack st).inp = s.inp := rfl
@[simp] theorem State.setStack_cfg (st : List Word) : (s.setStack st).cfg = s.cfg := rfl

/-! ### `setOut` -/

@[simp] theorem State.setOut_regs (o : List Byte) : (s.setOut o).regs = s.regs := rfl
@[simp] theorem State.setOut_pc (o : List Byte) : (s.setOut o).pc = s.pc := rfl
@[simp] theorem State.setOut_mem (o : List Byte) : (s.setOut o).mem = s.mem := rfl
@[simp] theorem State.setOut_stack (o : List Byte) : (s.setOut o).stack = s.stack := rfl
@[simp] theorem State.setOut_run (o : List Byte) : (s.setOut o).run = s.run := rfl
@[simp] theorem State.setOut_fault (o : List Byte) : (s.setOut o).fault = s.fault := rfl
@[simp] theorem State.setOut_out (o : List Byte) : (s.setOut o).out = o := rfl
@[simp] theorem State.setOut_inp (o : List Byte) : (s.setOut o).inp = s.inp := rfl
@[simp] theorem State.setOut_cfg (o : List Byte) : (s.setOut o).cfg = s.cfg := rfl

/-! ### `setInp` -/

@[simp] theorem State.setInp_regs (i : List Byte) : (s.setInp i).regs = s.regs := rfl
@[simp] theorem State.setInp_pc (i : List Byte) : (s.setInp i).pc = s.pc := rfl
@[simp] theorem State.setInp_mem (i : List Byte) : (s.setInp i).mem = s.mem := rfl
@[simp] theorem State.setInp_stack (i : List Byte) : (s.setInp i).stack = s.stack := rfl
@[simp] theorem State.setInp_run (i : List Byte) : (s.setInp i).run = s.run := rfl
@[simp] theorem State.setInp_fault (i : List Byte) : (s.setInp i).fault = s.fault := rfl
@[simp] theorem State.setInp_out (i : List Byte) : (s.setInp i).out = s.out := rfl
@[simp] theorem State.setInp_inp (i : List Byte) : (s.setInp i).inp = i := rfl
@[simp] theorem State.setInp_cfg (i : List Byte) : (s.setInp i).cfg = s.cfg := rfl

/-! ### `halt` -/

@[simp] theorem State.halt_regs : (s.halt).regs = s.regs := rfl
@[simp] theorem State.halt_pc : (s.halt).pc = s.pc := rfl
@[simp] theorem State.halt_mem : (s.halt).mem = s.mem := rfl
@[simp] theorem State.halt_stack : (s.halt).stack = s.stack := rfl
@[simp] theorem State.halt_run : (s.halt).run = .halted := rfl
@[simp] theorem State.halt_fault : (s.halt).fault = s.fault := rfl
@[simp] theorem State.halt_out : (s.halt).out = s.out := rfl
@[simp] theorem State.halt_inp : (s.halt).inp = s.inp := rfl
@[simp] theorem State.halt_cfg : (s.halt).cfg = s.cfg := rfl

/-! ### `raise` -/

@[simp] theorem raise_regs (op : Option Byte) (e : Trap) : (raise s op e).regs = s.regs := rfl
@[simp] theorem raise_mem (op : Option Byte) (e : Trap) : (raise s op e).mem = s.mem := rfl
@[simp] theorem raise_stack (op : Option Byte) (e : Trap) : (raise s op e).stack = s.stack := rfl
@[simp] theorem raise_run (op : Option Byte) (e : Trap) : (raise s op e).run = .faulted := rfl
@[simp] theorem raise_fault (op : Option Byte) (e : Trap) : (raise s op e).fault = some (faultRecord s.pc op e) := rfl
@[simp] theorem raise_out (op : Option Byte) (e : Trap) : (raise s op e).out = s.out := rfl
@[simp] theorem raise_inp (op : Option Byte) (e : Trap) : (raise s op e).inp = s.inp := rfl
@[simp] theorem raise_cfg (op : Option Byte) (e : Trap) : (raise s op e).cfg = s.cfg := rfl

/-! ### `jumpTo` -/

@[simp] theorem jumpTo_regs (target : Word) : (jumpTo s target).regs = s.regs := rfl
@[simp] theorem jumpTo_pc (target : Word) : (jumpTo s target).pc = target.setWidth 32 := rfl
@[simp] theorem jumpTo_mem (target : Word) : (jumpTo s target).mem = s.mem := rfl
@[simp] theorem jumpTo_stack (target : Word) : (jumpTo s target).stack = s.stack := rfl
@[simp] theorem jumpTo_run (target : Word) : (jumpTo s target).run = s.run := rfl
@[simp] theorem jumpTo_fault (target : Word) : (jumpTo s target).fault = s.fault := rfl
@[simp] theorem jumpTo_out (target : Word) : (jumpTo s target).out = s.out := rfl
@[simp] theorem jumpTo_inp (target : Word) : (jumpTo s target).inp = s.inp := rfl
@[simp] theorem jumpTo_cfg (target : Word) : (jumpTo s target).cfg = s.cfg := rfl

/-! ### `advance` -/

@[simp] theorem advance_regs (n : Nat) : (advance s n).regs = s.regs := rfl
@[simp] theorem advance_pc (n : Nat) : (advance s n).pc = s.pc + BitVec.ofNat 32 n := rfl
@[simp] theorem advance_mem (n : Nat) : (advance s n).mem = s.mem := rfl
@[simp] theorem advance_stack (n : Nat) : (advance s n).stack = s.stack := rfl
@[simp] theorem advance_run (n : Nat) : (advance s n).run = s.run := rfl
@[simp] theorem advance_fault (n : Nat) : (advance s n).fault = s.fault := rfl
@[simp] theorem advance_out (n : Nat) : (advance s n).out = s.out := rfl
@[simp] theorem advance_inp (n : Nat) : (advance s n).inp = s.inp := rfl
@[simp] theorem advance_cfg (n : Nat) : (advance s n).cfg = s.cfg := rfl

/-! ### `afterFetch` -/

@[simp] theorem afterFetch_regs (o : Opcode) : (afterFetch o s).regs = s.regs := rfl
@[simp] theorem afterFetch_pc (o : Opcode) : (afterFetch o s).pc = s.pc + BitVec.ofNat 32 o.length := rfl
@[simp] theorem afterFetch_mem (o : Opcode) : (afterFetch o s).mem = s.mem := rfl
@[simp] theorem afterFetch_stack (o : Opcode) : (afterFetch o s).stack = s.stack := rfl
@[simp] theorem afterFetch_run (o : Opcode) : (afterFetch o s).run = s.run := rfl
@[simp] theorem afterFetch_fault (o : Opcode) : (afterFetch o s).fault = s.fault := rfl
@[simp] theorem afterFetch_out (o : Opcode) : (afterFetch o s).out = s.out := rfl
@[simp] theorem afterFetch_inp (o : Opcode) : (afterFetch o s).inp = s.inp := rfl
@[simp] theorem afterFetch_cfg (o : Opcode) : (afterFetch o s).cfg = s.cfg := rfl

/-! ### `txByte` -/

@[simp] theorem txByte_regs (b : Byte) : (txByte s b).regs = s.regs := rfl
@[simp] theorem txByte_pc (b : Byte) : (txByte s b).pc = s.pc := rfl
@[simp] theorem txByte_mem (b : Byte) : (txByte s b).mem = s.mem := rfl
@[simp] theorem txByte_stack (b : Byte) : (txByte s b).stack = s.stack := rfl
@[simp] theorem txByte_run (b : Byte) : (txByte s b).run = s.run := rfl
@[simp] theorem txByte_fault (b : Byte) : (txByte s b).fault = s.fault := rfl
@[simp] theorem txByte_out (b : Byte) : (txByte s b).out = s.out ++ [b] := rfl
@[simp] theorem txByte_inp (b : Byte) : (txByte s b).inp = s.inp := rfl
@[simp] theorem txByte_cfg (b : Byte) : (txByte s b).cfg = s.cfg := rfl

/-! ### The fault record -/

@[simp] theorem faultRecord_kind (p : Pc) (op : Option Byte) (e : Trap) : (faultRecord p op e).kind = e.kind := rfl
@[simp] theorem faultRecord_code (p : Pc) (op : Option Byte) (e : Trap) : (faultRecord p op e).code = e.kind.code := rfl
@[simp] theorem faultRecord_opcode (p : Pc) (op : Option Byte) (e : Trap) : (faultRecord p op e).opcode = op := rfl
@[simp] theorem faultRecord_pc0 (p : Pc) (op : Option Byte) (e : Trap) : (faultRecord p op e).pc0 = p := rfl
@[simp] theorem faultRecord_info (p : Pc) (op : Option Byte) (e : Trap) : (faultRecord p op e).info = e.info := rfl

end updates

/-! ### Reset -/

@[simp] theorem reset_pc : State.reset.pc = 0 := rfl
@[simp] theorem reset_mem : State.reset.mem = [] := rfl
@[simp] theorem reset_stack : State.reset.stack = [] := rfl
@[simp] theorem reset_run : State.reset.run = .running := rfl
@[simp] theorem reset_fault : State.reset.fault = none := rfl
@[simp] theorem reset_out : State.reset.out = [] := rfl
@[simp] theorem reset_inp : State.reset.inp = [] := rfl
@[simp] theorem reset_cfg : State.reset.cfg = Config.default := rfl

end Sys2Proof.Machine
end

