-- ==== Sys2Proof/Laws/Ops.lean ====
section
/-! SUPPORT. One lemma, or one for each outcome, about each shared operation: everything it can do. Later proofs cite
these and do not unfold the operation. -/

namespace Sys2Proof.Machine

@[simp] theorem except_bind_ok {ε α β : Type} (a : α) (f : α → Except ε β) : ((.ok a : Except ε α) >>= f) = f a := rfl
@[simp] theorem except_bind_error {ε α β : Type} (e : ε) (f : α → Except ε β) :
    ((.error e : Except ε α) >>= f) = .error e := rfl

/-- A sequence answers a value exactly when its first part does and its second part does on that. -/
theorem except_bind_eq_ok {ε α β : Type} (x : Except ε α) (f : α → Except ε β) (b : β) :
    x >>= f = .ok b ↔ ∃ a, x = .ok a ∧ f a = .ok b := by
  cases x <;> simp

/-- A sequence raises exactly what its first part raises, or its second part after the first completes. -/
theorem except_bind_eq_error {ε α β : Type} (x : Except ε α) (f : α → Except ε β) (e : ε) :
    x >>= f = .error e ↔ x = .error e ∨ ∃ a, x = .ok a ∧ f a = .error e := by
  cases x <;> simp

/-! ### Registers -/

theorem readReg_gpr {s : State} {i : Byte} (h : i.toNat < 15) : readReg s i = .ok (s.regs[i.toNat]) := by
  simp [readReg, h]

theorem readReg_pc {s : State} {i : Byte} (h : i.toNat = 15) : readReg s i = .ok (s.pc.setWidth 64) := by
  simp [readReg, h]

theorem readReg_bad {s : State} {i : Byte} (h : 15 < i.toNat) :
    readReg s i = .error ⟨.registerIndex, i.setWidth 64⟩ := by
  have h1 : ¬ i.toNat < 15 := by omega
  have h2 : ¬ i.toNat = 15 := by omega
  simp [readReg, h1, h2]

theorem writeReg_gpr {s : State} {i : Byte} (v : Word) (h : i.toNat < 15) :
    writeReg s i v = .ok (s.setReg ⟨i.toNat, h⟩ v) := by
  simp [writeReg, h]

theorem writeReg_pc {s : State} {i : Byte} (v : Word) (h : i.toNat = 15) : writeReg s i v = .ok (jumpTo s v) := by
  simp [writeReg, h]

theorem writeReg_bad {s : State} {i : Byte} (v : Word) (h : 15 < i.toNat) :
    writeReg s i v = .error ⟨.registerIndex, i.setWidth 64⟩ := by
  have h1 : ¬ i.toNat < 15 := by omega
  have h2 : ¬ i.toNat = 15 := by omega
  simp [writeReg, h1, h2]

/-- A read raises only RegisterIndexFault, and only for an index above 15. -/
theorem readReg_error {s : State} {i : Byte} {e : Trap} (h : readReg s i = .error e) :
    15 < i.toNat ∧ e = ⟨.registerIndex, i.setWidth 64⟩ := by
  rcases Nat.lt_trichotomy i.toNat 15 with hi | hi | hi
  · simp [readReg_gpr hi] at h
  · simp [readReg_pc hi] at h
  · rw [readReg_bad hi] at h
    exact ⟨hi, (Except.error.inj h).symm⟩

/-- A write changes one register, or the pc, or raises RegisterIndexFault. -/
theorem writeReg_cases (s : State) (i : Byte) (v : Word) :
    (∃ h : i.toNat < 15, writeReg s i v = .ok (s.setReg ⟨i.toNat, h⟩ v)) ∨
      (i.toNat = 15 ∧ writeReg s i v = .ok (s.setPc (v.setWidth 32))) ∨
      (15 < i.toNat ∧ writeReg s i v = .error ⟨.registerIndex, i.setWidth 64⟩) := by
  rcases Nat.lt_trichotomy i.toNat 15 with hi | hi | hi
  · exact .inl ⟨hi, writeReg_gpr v hi⟩
  · exact .inr (.inl ⟨hi, writeReg_pc v hi⟩)
  · exact .inr (.inr ⟨hi, writeReg_bad v hi⟩)

theorem writeReg_error {s : State} {i : Byte} {v : Word} {e : Trap} (h : writeReg s i v = .error e) :
    15 < i.toNat ∧ e = ⟨.registerIndex, i.setWidth 64⟩ := by
  rcases writeReg_cases s i v with ⟨h1, h2⟩ | ⟨h1, h2⟩ | ⟨h1, h2⟩ <;> rw [h2] at h
  · simp at h
  · simp at h
  · exact ⟨h1, (Except.error.inj h).symm⟩

/-- A write that completes changed the one register, or the pc alone. -/
theorem writeReg_eq_ok {s t : State} {i : Byte} {v : Word} (h : writeReg s i v = .ok t) :
    (∃ h : i.toNat < 15, t = s.setReg ⟨i.toNat, h⟩ v) ∨ (i.toNat = 15 ∧ t = s.setPc (v.setWidth 32)) := by
  rcases writeReg_cases s i v with ⟨h1, h2⟩ | ⟨h1, h2⟩ | ⟨h1, h2⟩ <;> rw [h2] at h
  · exact .inl ⟨h1, (Except.ok.inj h).symm⟩
  · exact .inr ⟨h1, (Except.ok.inj h).symm⟩
  · simp at h

/-! ### Memory -/

theorem memRead_ok {s : State} {addr : Word} (h : addr.toNat < s.cfg.memSize) :
    memRead s addr = .ok (s.mem.read addr.toNat) := by simp [memRead, h]

theorem memRead_bad {s : State} {addr : Word} (h : s.cfg.memSize ≤ addr.toNat) :
    memRead s addr = .error ⟨.memoryRange, addr⟩ := by simp [memRead, Nat.not_lt.2 h]

theorem memRead_error {s : State} {addr : Word} {e : Trap} (h : memRead s addr = .error e) :
    s.cfg.memSize ≤ addr.toNat ∧ e = ⟨.memoryRange, addr⟩ := by
  unfold memRead at h
  split at h
  · simp at h
  · exact ⟨Nat.le_of_not_lt ‹_›, (Except.error.inj h).symm⟩

theorem memWrite_ok {s : State} {addr : Word} (v : Byte) (h : addr.toNat < s.cfg.memSize) :
    memWrite s addr v = .ok (s.setMem (s.mem.write addr.toNat v)) := by simp [memWrite, h]

theorem memWrite_bad {s : State} {addr : Word} (v : Byte) (h : s.cfg.memSize ≤ addr.toNat) :
    memWrite s addr v = .error ⟨.memoryRange, addr⟩ := by simp [memWrite, Nat.not_lt.2 h]

/-- A store changes the memory at one allocated address, or raises MemoryRangeFault. -/
theorem memWrite_cases (s : State) (addr : Word) (v : Byte) :
    (addr.toNat < s.cfg.memSize ∧ memWrite s addr v = .ok (s.setMem (s.mem.write addr.toNat v))) ∨
      (s.cfg.memSize ≤ addr.toNat ∧ memWrite s addr v = .error ⟨.memoryRange, addr⟩) := by
  rcases Nat.lt_or_ge addr.toNat s.cfg.memSize with h | h
  · exact .inl ⟨h, memWrite_ok v h⟩
  · exact .inr ⟨h, memWrite_bad v h⟩

theorem memWrite_eq_ok {s t : State} {addr : Word} {v : Byte} (h : memWrite s addr v = .ok t) :
    addr.toNat < s.cfg.memSize ∧ t = s.setMem (s.mem.write addr.toNat v) := by
  rcases memWrite_cases s addr v with ⟨h1, h2⟩ | ⟨h1, h2⟩ <;> rw [h2] at h
  · exact ⟨h1, (Except.ok.inj h).symm⟩
  · simp at h

theorem memWrite_error {s : State} {addr : Word} {v : Byte} {e : Trap} (h : memWrite s addr v = .error e) :
    s.cfg.memSize ≤ addr.toNat ∧ e = ⟨.memoryRange, addr⟩ := by
  rcases memWrite_cases s addr v with ⟨h1, h2⟩ | ⟨h1, h2⟩ <;> rw [h2] at h
  · simp at h
  · exact ⟨h1, (Except.error.inj h).symm⟩

/-! ### The stack -/

theorem pushWord_cases (s : State) (v : Word) :
    (stackFull s = false ∧ pushWord s v = .ok (s.setStack (s.stack ++ [v]))) ∨
      (stackFull s = true ∧ pushWord s v = .error ⟨.stackOverflow, 0⟩) := by
  cases h : stackFull s <;> simp [pushWord, h]

theorem popWord_nil {s : State} (h : s.stack = []) : popWord s = .error ⟨.stackUnderflow, 0⟩ := by
  simp [popWord, h]

theorem popWord_snoc {s : State} {st : List Word} {v : Word} (h : s.stack = st ++ [v]) :
    popWord s = .ok (v, s.setStack st) := by
  simp [popWord, h]

theorem popWord_cases (s : State) :
    (∃ st v, s.stack = st ++ [v] ∧ popWord s = .ok (v, s.setStack st)) ∨
      (s.stack = [] ∧ popWord s = .error ⟨.stackUnderflow, 0⟩) := by
  rcases List.eq_nil_or_concat s.stack with h | ⟨st, v, h⟩
  · exact .inr ⟨h, popWord_nil h⟩
  · simp only [List.concat_eq_append] at h
    exact .inl ⟨st, v, h, popWord_snoc h⟩

theorem pushWord_eq_ok {s t : State} {v : Word} (h : pushWord s v = .ok t) :
    stackFull s = false ∧ t = s.setStack (s.stack ++ [v]) := by
  rcases pushWord_cases s v with ⟨h1, h2⟩ | ⟨h1, h2⟩ <;> rw [h2] at h
  · exact ⟨h1, (Except.ok.inj h).symm⟩
  · simp at h

theorem pushWord_error {s : State} {v : Word} {e : Trap} (h : pushWord s v = .error e) :
    stackFull s = true ∧ e = ⟨.stackOverflow, 0⟩ := by
  rcases pushWord_cases s v with ⟨h1, h2⟩ | ⟨h1, h2⟩ <;> rw [h2] at h
  · simp at h
  · exact ⟨h1, (Except.error.inj h).symm⟩

theorem popWord_eq_ok {s t : State} {v : Word} (h : popWord s = .ok (v, t)) :
    ∃ st, s.stack = st ++ [v] ∧ t = s.setStack st := by
  rcases popWord_cases s with ⟨st, v', h1, h2⟩ | ⟨h1, h2⟩ <;> rw [h2] at h
  · simp only [Except.ok.injEq, Prod.mk.injEq] at h
    obtain ⟨rfl, rfl⟩ := h
    exact ⟨st, h1, rfl⟩
  · simp at h

theorem popWord_error {s : State} {e : Trap} (h : popWord s = .error e) :
    s.stack = [] ∧ e = ⟨.stackUnderflow, 0⟩ := by
  rcases popWord_cases s with ⟨st, v', h1, h2⟩ | ⟨h1, h2⟩ <;> rw [h2] at h
  · simp at h
  · exact ⟨h1, (Except.error.inj h).symm⟩

/-! ### The channels -/

theorem rxByte_cons {s : State} {b : Byte} {rest : List Byte} (h : s.inp = b :: rest) :
    rxByte s = .ok (some (b, s.setInp rest)) := by simp [rxByte, h]

theorem rxByte_fault {s : State} (h : s.inp = []) (hp : s.cfg.rxEmpty = .fault) :
    rxByte s = .error ⟨.inputUnavailable, 0⟩ := by simp [rxByte, h, hp]

theorem rxByte_block {s : State} (h : s.inp = []) (hp : s.cfg.rxEmpty = .block) : rxByte s = .ok none := by
  simp [rxByte, h, hp]

theorem rxByte_cases (s : State) :
    (∃ b rest, s.inp = b :: rest ∧ rxByte s = .ok (some (b, s.setInp rest))) ∨
      (s.inp = [] ∧ s.cfg.rxEmpty = .block ∧ rxByte s = .ok none) ∨
      (s.inp = [] ∧ s.cfg.rxEmpty = .fault ∧ rxByte s = .error ⟨.inputUnavailable, 0⟩) := by
  cases h : s.inp with
  | cons b rest => exact .inl ⟨b, rest, rfl, rxByte_cons h⟩
  | nil =>
    cases hp : s.cfg.rxEmpty with
    | block => exact .inr (.inl ⟨rfl, rfl, rxByte_block h hp⟩)
    | fault => exact .inr (.inr ⟨rfl, rfl, rxByte_fault h hp⟩)

theorem rxByte_error {s : State} {e : Trap} (h : rxByte s = .error e) :
    s.inp = [] ∧ s.cfg.rxEmpty = .fault ∧ e = ⟨.inputUnavailable, 0⟩ := by
  rcases rxByte_cases s with ⟨b, rest, h1, h2⟩ | ⟨h1, hp, h2⟩ | ⟨h1, hp, h2⟩ <;> rw [h2] at h
  · simp at h
  · simp at h
  · exact ⟨h1, hp, (Except.error.inj h).symm⟩

/-! ### The frame of an instruction -/

theorem runInstr_ok {o : Opcode} {s t : State} {body : State → Except Trap State}
    (h : body (afterFetch o s) = .ok t) : runInstr o s body = .next t := by simp [runInstr, h]

theorem runInstr_error {o : Opcode} {s : State} {e : Trap} {body : State → Except Trap State}
    (h : body (afterFetch o s) = .error e) : runInstr o s body = .next (raise s (some o.code) e) := by
  simp [runInstr, h]

/-- An instruction always has a next state: its body's, or the fault taken from the start of the step. -/
theorem runInstr_cases {o : Opcode} {s t : State} {body : State → Except Trap State}
    (h : runInstr o s body = .next t) :
    body (afterFetch o s) = .ok t ∨ ∃ e, body (afterFetch o s) = .error e ∧ t = raise s (some o.code) e := by
  unfold runInstr at h
  split at h
  · exact .inl (by simp_all)
  · exact .inr ⟨_, ‹_›, by simp_all⟩

/-! ### Fetch -/

theorem fetch8_ok {s : State} (h : s.pc.toNat < s.cfg.memSize) :
    fetch8 s = .ok (s.mem.read s.pc.toNat, advance s 1) := by simp [fetch8, h]

theorem fetch8_bad {s : State} (h : s.cfg.memSize ≤ s.pc.toNat) :
    fetch8 s = .error ⟨.memoryRange, s.pc.setWidth 64⟩ := by simp [fetch8, Nat.not_lt.2 h]

theorem fetchBytes_length : ∀ (n : Nat) (s t : State) (bs : List Byte), fetchBytes n s = .ok (bs, t) → bs.length = n
  | 0, s, t, bs, h => by simp [fetchBytes] at h; simp [← h.1]
  | n + 1, s, t, bs, h => by
    simp only [fetchBytes] at h
    split at h
    · simp at h
    · split at h
      · simp at h
      · rename_i bs' s2 hb
        simp at h
        rw [← h.1]
        simp [fetchBytes_length n _ s2 bs' hb]

end Sys2Proof.Machine
end

