-- ==== Sys2Proof/Laws/Exec.lean ====
section
/-! SUPPORT. From an instruction's pseudocode to the outcome of `exec`, and what the operand forms do when the index names
a register and when it does not. -/

namespace Sys2Proof.Machine

theorem namesRegister_true {r : Byte} : namesRegister r = true ↔ r.toNat ≤ 15 := by
  simp [namesRegister, Config.pcIndex]

theorem namesRegister_false {r : Byte} : namesRegister r = false ↔ 15 < r.toNat := by
  simp [namesRegister, Config.pcIndex]

/-- Reading a named register after the fetches gives the operand's value. -/
theorem readReg_named {o : Opcode} {s : State} {r : Byte} (h : namesRegister r = true) :
    readReg (afterFetch o s) r = .ok (regOperand o s r) := by
  rw [namesRegister_true] at h
  rcases Nat.lt_or_ge r.toNat 15 with h1 | h1
  · simp [readReg_gpr h1, regOperand, h1]
  · have : r.toNat = 15 := by omega
    simp [readReg_pc this, regOperand, this, nextPc]

/-- Writing a named register as the one effect gives the instruction's result state. -/
theorem writeReg_named {o : Opcode} {s : State} {r : Byte} {v : Word} (h : namesRegister r = true) :
    writeReg (afterFetch o s) r v = .ok (withResult o s r v) := by
  rw [namesRegister_true] at h
  rcases Nat.lt_or_ge r.toNat 15 with h1 | h1
  · rw [writeReg_gpr v h1]
    simp only [withResult, h1, dif_pos]
    rfl
  · have : r.toNat = 15 := by omega
    rw [writeReg_pc v this]
    simp only [withResult, this]
    rfl

theorem readReg_unnamed {s : State} {r : Byte} (h : namesRegister r = false) :
    readReg s r = .error ⟨.registerIndex, indexInfo r⟩ := readReg_bad (namesRegister_false.1 h)

theorem writeReg_unnamed {s : State} {r : Byte} {v : Word} (h : namesRegister r = false) :
    writeReg s r v = .error ⟨.registerIndex, indexInfo r⟩ := writeReg_bad v (namesRegister_false.1 h)

/-! ### The fetches change the pc alone, so the other operations do not see them -/

@[simp] theorem memRead_afterFetch (o : Opcode) (s : State) (addr : Word) :
    memRead (afterFetch o s) addr = memRead s addr := rfl

@[simp] theorem stackFull_afterFetch (o : Opcode) (s : State) : stackFull (afterFetch o s) = stackFull s := rfl

@[simp] theorem callAllowed_afterFetch (o : Opcode) (s : State) (addr : Word) :
    callAllowed (afterFetch o s) addr = callAllowed s addr := rfl

theorem memWrite_afterFetch_ok {o : Opcode} {s : State} {addr : Word} (v : Byte) (h : addr.toNat < s.cfg.memSize) :
    memWrite (afterFetch o s) addr v = .ok { s with mem := s.mem.write addr.toNat v, pc := nextPc o s } :=
  memWrite_ok (s := afterFetch o s) v h

theorem memWrite_afterFetch_bad {o : Opcode} {s : State} {addr : Word} (v : Byte) (h : s.cfg.memSize ≤ addr.toNat) :
    memWrite (afterFetch o s) addr v = .error ⟨.memoryRange, addr⟩ :=
  memWrite_bad (s := afterFetch o s) v h

/-! ### `exec` as one frame around one function -/

/-- The pseudocode of every instruction in one function, over the state after the fetches; `s` is the state at the start
of the step, which a waiting RX keeps. -/
def execBody (i : Instr) (s t : State) : Except Trap State :=
  match i with
  | .nop => .ok t
  | .set d v => writeReg t d v
  | .add d a b => readReg t a >>= fun va => readReg t b >>= fun vb => writeReg t d (wrapAdd va vb)
  | .sub d a b => readReg t a >>= fun va => readReg t b >>= fun vb => writeReg t d (wrapSub va vb)
  | .ld d addr => memRead t addr >>= fun b => writeReg t d (b.setWidth 64)
  | .sto r addr => readReg t r >>= fun v => memWrite t addr (v.setWidth 8)
  | .ldr d p => readReg t p >>= fun addr => memRead t addr >>= fun b => writeReg t d (b.setWidth 64)
  | .str r p => readReg t r >>= fun v => readReg t p >>= fun addr => memWrite t addr (v.setWidth 8)
  | .lsl d m => readReg t d >>= fun v => readReg t m >>= fun n => writeReg t d (shiftLeft v n)
  | .lsr d m => readReg t d >>= fun v => readReg t m >>= fun n => writeReg t d (shiftRight v n)
  | .jmp addr => .ok (jumpTo t addr)
  | .jlt a b addr => jumpIf .lt a b addr t
  | .jle a b addr => jumpIf .le a b addr t
  | .jgt a b addr => jumpIf .gt a b addr t
  | .jge a b addr => jumpIf .ge a b addr t
  | .jeq a b addr => jumpIf .eq a b addr t
  | .jne a b addr => jumpIf .ne a b addr t
  | .jpr p => readReg t p >>= fun v => .ok (jumpTo t v)
  | .push r => readReg t r >>= fun v => pushWord t v
  | .pop d => popWord t >>= fun q => writeReg q.2 d q.1
  | .call addr =>
    if callAllowed t addr then pushWord t (t.pc.setWidth 64) >>= fun t' => .ok (jumpTo t' addr)
    else .error ⟨.callTarget, addr⟩
  | .ret => popWord t >>= fun q => .ok (jumpTo q.2 q.1)
  | .tx r => readReg t r >>= fun v => .ok (txByte t (v.setWidth 8))
  | .rx d => rxByte t >>= fun q =>
    match q with
    | none => .ok s
    | some (b, t') => writeReg t' d (b.setWidth 64)
  | .hlt => .ok t.halt

/-- `exec` is the shared frame around the instruction's pseudocode: the one equation later proofs unfold `exec` by. -/
theorem exec_eq (i : Instr) (s : State) : exec i s = runInstr i.opcode s (execBody i s) := by
  cases i
  case rx d =>
    simp only [exec, execRx, Instr.opcode]
    rfl
  all_goals rfl

/-- The pseudocode completes: `exec` answers its state. -/
theorem exec_of_body_ok {i : Instr} {s t : State} (h : execBody i s (afterFetch i.opcode s) = .ok t) :
    exec i s = .next t := by
  rw [exec_eq, runInstr_ok h]

/-- The pseudocode raises: the instruction ends in that fault. -/
theorem faults_of_body_error {i : Instr} {s : State} {kind : FaultKind} {info : Word}
    (h : execBody i s (afterFetch i.opcode s) = .error ⟨kind, info⟩) : Faults i s kind info :=
  ⟨raise s (some i.opcode.code) ⟨kind, info⟩, by rw [exec_eq, runInstr_error h], _, rfl⟩

/-- What a next state of `exec` is: the pseudocode's state, or the fault it raised, taken from the start of the step. -/
theorem exec_cases {i : Instr} {s t : State} (h : exec i s = .next t) :
    execBody i s (afterFetch i.opcode s) = .ok t ∨
      ∃ e, execBody i s (afterFetch i.opcode s) = .error e ∧ t = raise s (some i.opcode.code) e :=
  runInstr_cases (by rw [← exec_eq, h])

end Sys2Proof.Machine
end

