-- ==== Sys2Proof/Laws/Effects.lean ====
section
/-! SUPPORT. Everything an instruction can do, said once: the effect its pseudocode has when it completes, and what it
raises when it does not. Statements over all instructions are case analyses over these two. -/

namespace Sys2Proof.Machine

/-- What the pseudocode of `i` makes of the state `u` after the fetches (`s` is the state at the start of the step). -/
inductive Effect (i : Instr) (s u : State) : State → Prop
  | wait (hi : i.opcode = .rx) (hin : u.inp = []) (hp : u.cfg.rxEmpty = .block) : Effect i s u s
  | nothing (hi : i = .nop) : Effect i s u u
  | jump (p : Pc) (hi : i.opcode ∈ [Opcode.jmp, .jlt, .jle, .jgt, .jge, .jeq, .jne, .jpr]) : Effect i s u (u.setPc p)
  | halt (hi : i = .hlt) : Effect i s u u.halt
  | write (d : Byte) (v : Word) (t : State) (hd : destination i = some d) (hi : i.opcode ≠ .pop) (hr : i.opcode ≠ .rx)
      (ht : writeReg u d v = .ok t) : Effect i s u t
  | pop (d : Byte) (st : List Word) (v : Word) (t : State) (hi : i = .pop d) (hst : u.stack = st ++ [v])
      (ht : writeReg (u.setStack st) d v = .ok t) : Effect i s u t
  | receive (d b : Byte) (rest : List Byte) (t : State) (hi : i = .rx d) (hin : u.inp = b :: rest)
      (ht : writeReg (u.setInp rest) d (b.setWidth 64) = .ok t) : Effect i s u t
  | storeAbsolute (r : Byte) (addr v : Word) (hi : i = .sto r addr) (hv : readReg u r = .ok v)
      (ha : addr.toNat < u.cfg.memSize) : Effect i s u (u.setMem (u.mem.write addr.toNat (v.setWidth 8)))
  | storeIndirect (r p : Byte) (addr v : Word) (hi : i = .str r p) (hv : readReg u r = .ok v)
      (hp : readReg u p = .ok addr) (ha : addr.toNat < u.cfg.memSize) :
      Effect i s u (u.setMem (u.mem.write addr.toNat (v.setWidth 8)))
  | push (r : Byte) (v : Word) (hi : i = .push r) (hf : stackFull u = false) (hv : readReg u r = .ok v) :
      Effect i s u (u.setStack (u.stack ++ [v]))
  | call (addr : Word) (hi : i = .call addr) (hf : stackFull u = false) :
      Effect i s u (jumpTo (u.setStack (u.stack ++ [u.pc.setWidth 64])) addr)
  | ret (st : List Word) (v : Word) (hi : i = .ret) (hst : u.stack = st ++ [v]) :
      Effect i s u (jumpTo (u.setStack st) v)
  | transmit (r : Byte) (v : Word) (hi : i = .tx r) (hv : readReg u r = .ok v) : Effect i s u (txByte u (v.setWidth 8))

/-- What the pseudocode of `i` can raise at the state `u` after the fetches. -/
inductive Raised (i : Instr) (u : State) : Trap → Prop
  | register (r : Byte) (hr : r ∈ i.registerOperands) (h : 15 < r.toNat) : Raised i u ⟨.registerIndex, r.setWidth 64⟩
  | range (addr : Word) (hi : i.opcode ∈ [Opcode.ld, .ldr, .sto, .str]) (h : u.cfg.memSize ≤ addr.toNat) :
      Raised i u ⟨.memoryRange, addr⟩
  | underflow (hi : i.opcode ∈ [Opcode.pop, .ret]) (h : u.stack = []) : Raised i u ⟨.stackUnderflow, 0⟩
  | overflow (hi : i.opcode ∈ [Opcode.push, .call]) (h : stackFull u = true) : Raised i u ⟨.stackOverflow, 0⟩
  | target (addr : Word) (hi : i = .call addr) (h : callAllowed u addr = false) : Raised i u ⟨.callTarget, addr⟩
  | noInput (hi : i.opcode = .rx) (h : u.inp = []) (hp : u.cfg.rxEmpty = .fault) : Raised i u ⟨.inputUnavailable, 0⟩

theorem jumpIf_eq_ok {r : Relation} {a b : Byte} {addr : Word} {u t : State} (h : jumpIf r a b addr u = .ok t) :
    ∃ p, t = u.setPc p := by
  simp only [jumpIf, except_bind_eq_ok] at h
  obtain ⟨va, -, vb, -, h⟩ := h
  rw [← Except.ok.inj h]
  split
  · exact ⟨_, rfl⟩
  · exact ⟨u.pc, rfl⟩

theorem jumpIf_error {r : Relation} {a b : Byte} {addr : Word} {u : State} {e : Trap}
    (h : jumpIf r a b addr u = .error e) :
    ∃ c, (c = a ∨ c = b) ∧ 15 < c.toNat ∧ e = ⟨.registerIndex, c.setWidth 64⟩ := by
  simp only [jumpIf, except_bind_eq_error] at h
  rcases h with h | ⟨va, -, h | ⟨vb, -, h⟩⟩
  · exact ⟨a, .inl rfl, readReg_error h⟩
  · exact ⟨b, .inr rfl, readReg_error h⟩
  · simp at h

/-- Pseudocode that completes has one of the effects. -/
theorem execBody_effect {i : Instr} {s u t : State} (h : execBody i s u = .ok t) : Effect i s u t := by
  cases i
  case nop => exact Except.ok.inj h ▸ .nothing rfl
  case set d v => exact .write d v t rfl (by simp [Instr.opcode]) (by simp [Instr.opcode]) h
  case add d a b | sub d a b | lsl d a | lsr d a =>
    simp only [execBody, except_bind_eq_ok] at h
    obtain ⟨va, -, vb, -, h⟩ := h
    exact .write d _ t rfl (by simp [Instr.opcode]) (by simp [Instr.opcode]) h
  case ld d addr =>
    simp only [execBody, except_bind_eq_ok] at h
    obtain ⟨b, -, h⟩ := h
    exact .write d _ t rfl (by simp [Instr.opcode]) (by simp [Instr.opcode]) h
  case sto r addr =>
    simp only [execBody, except_bind_eq_ok] at h
    obtain ⟨v, hv, h⟩ := h
    obtain ⟨ha, rfl⟩ := memWrite_eq_ok h
    exact .storeAbsolute r addr v rfl hv ha
  case ldr d p =>
    simp only [execBody, except_bind_eq_ok] at h
    obtain ⟨addr, -, b, -, h⟩ := h
    exact .write d _ t rfl (by simp [Instr.opcode]) (by simp [Instr.opcode]) h
  case str r p =>
    simp only [execBody, except_bind_eq_ok] at h
    obtain ⟨v, hv, addr, hp, h⟩ := h
    obtain ⟨ha, rfl⟩ := memWrite_eq_ok h
    exact .storeIndirect r p addr v rfl hv hp ha
  case jmp addr => exact Except.ok.inj h ▸ .jump _ (by simp [Instr.opcode])
  case jlt a b addr | jle a b addr | jgt a b addr | jge a b addr | jeq a b addr | jne a b addr =>
    obtain ⟨p, rfl⟩ := jumpIf_eq_ok h
    exact .jump p (by simp [Instr.opcode])
  case jpr p =>
    simp only [execBody, except_bind_eq_ok] at h
    obtain ⟨v, -, h⟩ := h
    exact Except.ok.inj h ▸ .jump _ (by simp [Instr.opcode])
  case push r =>
    simp only [execBody, except_bind_eq_ok] at h
    obtain ⟨v, hv, h⟩ := h
    obtain ⟨hf, rfl⟩ := pushWord_eq_ok h
    exact .push r v rfl hf hv
  case pop d =>
    simp only [execBody, except_bind_eq_ok] at h
    obtain ⟨⟨v, w⟩, hq, h⟩ := h
    obtain ⟨st, hst, rfl⟩ := popWord_eq_ok hq
    exact .pop d st v t rfl hst h
  case call addr =>
    simp only [execBody] at h
    cases hc : callAllowed u addr <;> simp only [hc, if_true, Bool.false_eq_true, if_false] at h
    · simp at h
    · simp only [except_bind_eq_ok] at h
      obtain ⟨w, hw, h⟩ := h
      obtain ⟨hf, rfl⟩ := pushWord_eq_ok hw
      exact Except.ok.inj h ▸ .call addr rfl hf
  case ret =>
    simp only [execBody, except_bind_eq_ok] at h
    obtain ⟨⟨v, w⟩, hq, h⟩ := h
    obtain ⟨st, hst, rfl⟩ := popWord_eq_ok hq
    exact Except.ok.inj h ▸ .ret st v rfl hst
  case tx r =>
    simp only [execBody, except_bind_eq_ok] at h
    obtain ⟨v, hv, h⟩ := h
    exact Except.ok.inj h ▸ .transmit r v rfl hv
  case rx d =>
    simp only [execBody] at h
    rcases rxByte_cases u with ⟨b, rest, hin, hr⟩ | ⟨hin, hp, hr⟩ | ⟨hin, hp, hr⟩ <;> rw [hr] at h
    · exact .receive d b rest t rfl hin h
    · exact Except.ok.inj h ▸ .wait rfl hin hp
    · simp at h
  case hlt => exact Except.ok.inj h ▸ .halt rfl

/-- Pseudocode that does not complete raises one of the faults of its instruction. -/
theorem execBody_raised {i : Instr} {s u : State} {e : Trap} (h : execBody i s u = .error e) : Raised i u e := by
  have reg : ∀ {r : Byte}, r ∈ i.registerOperands → (15 < r.toNat ∧ e = ⟨.registerIndex, r.setWidth 64⟩) →
      Raised i u e := fun hr hh => hh.2 ▸ .register _ hr hh.1
  cases i
  case nop | jmp | hlt => simp [execBody] at h
  case set d v => exact reg (by simp [Instr.registerOperands, Instr.operands, Instr.opcode, Opcode.format,
      Format.numRegs]) (writeReg_error h)
  case add d a b | sub d a b | lsl d a | lsr d a =>
    simp only [execBody, except_bind_eq_error] at h
    rcases h with h | ⟨va, -, h | ⟨vb, -, h⟩⟩
    · exact reg (by simp [Instr.registerOperands, Instr.operands, Instr.opcode, Opcode.format, Format.numRegs])
        (readReg_error h)
    · exact reg (by simp [Instr.registerOperands, Instr.operands, Instr.opcode, Opcode.format, Format.numRegs])
        (readReg_error h)
    · exact reg (by simp [Instr.registerOperands, Instr.operands, Instr.opcode, Opcode.format, Format.numRegs])
        (writeReg_error h)
  case ld d addr =>
    simp only [execBody, except_bind_eq_error] at h
    rcases h with h | ⟨b, -, h⟩
    · obtain ⟨hm, rfl⟩ := memRead_error h
      exact .range addr (by simp [Instr.opcode]) hm
    · exact reg (by simp [Instr.registerOperands, Instr.operands, Instr.opcode, Opcode.format, Format.numRegs])
        (writeReg_error h)
  case sto r addr =>
    simp only [execBody, except_bind_eq_error] at h
    rcases h with h | ⟨v, -, h⟩
    · exact reg (by simp [Instr.registerOperands, Instr.operands, Instr.opcode, Opcode.format, Format.numRegs])
        (readReg_error h)
    · obtain ⟨hm, rfl⟩ := memWrite_error h
      exact .range addr (by simp [Instr.opcode]) hm
  case ldr d p =>
    simp only [execBody, except_bind_eq_error] at h
    rcases h with h | ⟨addr, -, h | ⟨b, -, h⟩⟩
    · exact reg (by simp [Instr.registerOperands, Instr.operands, Instr.opcode, Opcode.format, Format.numRegs])
        (readReg_error h)
    · obtain ⟨hm, rfl⟩ := memRead_error h
      exact .range addr (by simp [Instr.opcode]) hm
    · exact reg (by simp [Instr.registerOperands, Instr.operands, Instr.opcode, Opcode.format, Format.numRegs])
        (writeReg_error h)
  case str r p =>
    simp only [execBody, except_bind_eq_error] at h
    rcases h with h | ⟨v, -, h | ⟨addr, -, h⟩⟩
    · exact reg (by simp [Instr.registerOperands, Instr.operands, Instr.opcode, Opcode.format, Format.numRegs])
        (readReg_error h)
    · exact reg (by simp [Instr.registerOperands, Instr.operands, Instr.opcode, Opcode.format, Format.numRegs])
        (readReg_error h)
    · obtain ⟨hm, rfl⟩ := memWrite_error h
      exact .range addr (by simp [Instr.opcode]) hm
  case jlt a b addr | jle a b addr | jgt a b addr | jge a b addr | jeq a b addr | jne a b addr =>
    obtain ⟨c, hc, hh⟩ := jumpIf_error h
    exact reg (by rcases hc with rfl | rfl <;>
      simp [Instr.registerOperands, Instr.operands, Instr.opcode, Opcode.format, Format.numRegs]) hh
  case jpr r | tx r =>
    simp only [execBody, except_bind_eq_error] at h
    rcases h with h | ⟨v, -, h⟩
    · exact reg (by simp [Instr.registerOperands, Instr.operands, Instr.opcode, Opcode.format, Format.numRegs])
        (readReg_error h)
    · simp at h
  case push r =>
    simp only [execBody, except_bind_eq_error] at h
    rcases h with h | ⟨v, -, h⟩
    · exact reg (by simp [Instr.registerOperands, Instr.operands, Instr.opcode, Opcode.format, Format.numRegs])
        (readReg_error h)
    · obtain ⟨hf, rfl⟩ := pushWord_error h
      exact .overflow (by simp [Instr.opcode]) hf
  case pop d =>
    simp only [execBody, except_bind_eq_error] at h
    rcases h with h | ⟨q, -, h⟩
    · obtain ⟨hs, rfl⟩ := popWord_error h
      exact .underflow (by simp [Instr.opcode]) hs
    · exact reg (by simp [Instr.registerOperands, Instr.operands, Instr.opcode, Opcode.format, Format.numRegs])
        (writeReg_error h)
  case call addr =>
    simp only [execBody] at h
    cases hc : callAllowed u addr <;> simp only [hc, if_true, Bool.false_eq_true, if_false] at h
    · exact Except.error.inj h ▸ .target addr rfl hc
    · simp only [except_bind_eq_error] at h
      rcases h with h | ⟨w, -, h⟩
      · obtain ⟨hf, rfl⟩ := pushWord_error h
        exact .overflow (by simp [Instr.opcode]) hf
      · simp at h
  case ret =>
    simp only [execBody, except_bind_eq_error] at h
    rcases h with h | ⟨q, -, h⟩
    · obtain ⟨hs, rfl⟩ := popWord_error h
      exact .underflow (by simp [Instr.opcode]) hs
    · simp at h
  case rx d =>
    simp only [execBody] at h
    rcases rxByte_cases u with ⟨b, rest, hin, hr⟩ | ⟨hin, hp, hr⟩ | ⟨hin, hp, hr⟩ <;> rw [hr] at h
    · exact reg (by simp [Instr.registerOperands, Instr.operands, Instr.opcode, Opcode.format, Format.numRegs])
        (writeReg_error h)
    · simp at h
    · exact Except.error.inj h ▸ .noInput rfl hin hp

/-- Everything a next state of `exec` can be. -/
theorem exec_effect {i : Instr} {s t : State} (h : exec i s = .next t) :
    Effect i s (afterFetch i.opcode s) t ∨
      ∃ e, Raised i (afterFetch i.opcode s) e ∧ t = raise s (some i.opcode.code) e := by
  rcases exec_cases h with h | ⟨e, h, ht⟩
  · exact .inl (execBody_effect h)
  · exact .inr ⟨e, execBody_raised h, ht⟩

end Sys2Proof.Machine
end

