-- ==== Sys2Proof/Laws/PerInstr.lean ====
section
/-! SUPPORT. The statements made per instruction, one lemma per constructor of Instr. -/

namespace Sys2Proof.Laws.EncodeShape

/-- The bytes of an instruction are its opcode byte, then its register operands, then the literal's eight bytes where
its format has one (spec/30_encoding.md rules R80 to R82, R85). -/
def Statement (i : Instr) : Prop :=
  (encode i).take (1 + i.opcode.format.numRegs) = i.opcode.code :: i.registerOperands ∧
    (encode i).drop (1 + i.opcode.format.numRegs) =
      (if i.opcode.format.numLits = 1 then bytesOfWord i.operands.lit else [])

theorem nop : Statement .nop := ⟨rfl, rfl⟩
theorem set (reg : Byte) (lit : Word) : Statement (.set reg lit) := ⟨rfl, rfl⟩
theorem add (dst a b : Byte) : Statement (.add dst a b) := ⟨rfl, rfl⟩
theorem sub (dst a b : Byte) : Statement (.sub dst a b) := ⟨rfl, rfl⟩
theorem ld (reg : Byte) (addr : Word) : Statement (.ld reg addr) := ⟨rfl, rfl⟩
theorem sto (reg : Byte) (addr : Word) : Statement (.sto reg addr) := ⟨rfl, rfl⟩
theorem ldr (dst ptr : Byte) : Statement (.ldr dst ptr) := ⟨rfl, rfl⟩
theorem str (val ptr : Byte) : Statement (.str val ptr) := ⟨rfl, rfl⟩
theorem lsl (reg amount : Byte) : Statement (.lsl reg amount) := ⟨rfl, rfl⟩
theorem lsr (reg amount : Byte) : Statement (.lsr reg amount) := ⟨rfl, rfl⟩
theorem jmp (addr : Word) : Statement (.jmp addr) := ⟨rfl, rfl⟩
theorem jlt (a b : Byte) (addr : Word) : Statement (.jlt a b addr) := ⟨rfl, rfl⟩
theorem jle (a b : Byte) (addr : Word) : Statement (.jle a b addr) := ⟨rfl, rfl⟩
theorem jgt (a b : Byte) (addr : Word) : Statement (.jgt a b addr) := ⟨rfl, rfl⟩
theorem jge (a b : Byte) (addr : Word) : Statement (.jge a b addr) := ⟨rfl, rfl⟩
theorem jeq (a b : Byte) (addr : Word) : Statement (.jeq a b addr) := ⟨rfl, rfl⟩
theorem jne (a b : Byte) (addr : Word) : Statement (.jne a b addr) := ⟨rfl, rfl⟩
theorem jpr (ptr : Byte) : Statement (.jpr ptr) := ⟨rfl, rfl⟩
theorem push (reg : Byte) : Statement (.push reg) := ⟨rfl, rfl⟩
theorem pop (reg : Byte) : Statement (.pop reg) := ⟨rfl, rfl⟩
theorem call (addr : Word) : Statement (.call addr) := ⟨rfl, rfl⟩
theorem ret : Statement .ret := ⟨rfl, rfl⟩
theorem tx (reg : Byte) : Statement (.tx reg) := ⟨rfl, rfl⟩
theorem rx (reg : Byte) : Statement (.rx reg) := ⟨rfl, rfl⟩
theorem hlt : Statement .hlt := ⟨rfl, rfl⟩

end Sys2Proof.Laws.EncodeShape
end

