-- ==== Sys2Proof/Laws/Step.lean ====
section
/-! SUPPORT. What the front part of a step and a step can do, said once. -/

namespace Sys2Proof.Machine

/-- The pc advanced by one and then `k` is the pc advanced by `k + 1`. -/
theorem advance_one_pc (s : State) (k : Nat) :
    (advance s 1).pc + BitVec.ofNat 32 k = s.pc + BitVec.ofNat 32 (k + 1) := by
  rw [advance_pc, BitVec.add_assoc, ← BitVec.ofNat_add, Nat.add_comm 1 k]

theorem allocatedAtPc_tail {s : State} {n : Nat} (h : allocatedAtPc s (n + 1)) : allocatedAtPc (advance s 1) n := by
  intro k hk
  rw [advance_one_pc]
  exact h (k + 1) (by omega)

theorem allocatedAtPc_head {s : State} {n : Nat} (h : allocatedAtPc s (n + 1)) : s.pc.toNat < s.cfg.memSize := by
  simpa using h 0 (by omega)

theorem bytesAtPc_succ (s : State) (n : Nat) :
    bytesAtPc s (n + 1) = s.mem.read s.pc.toNat :: bytesAtPc (advance s 1) n := by
  simp only [bytesAtPc, List.range_succ_eq_map, List.map_cons, List.map_map, Function.comp_def, Nat.succ_eq_add_one,
    advance_one_pc, advance_mem]
  simp

theorem advance_advance (s : State) (n : Nat) : advance (advance s 1) n = advance s (n + 1) := by
  simp only [advance, State.setPc]
  rw [BitVec.add_assoc, ← BitVec.ofNat_add, Nat.add_comm 1 n]

/-- Fetching allocated bytes gives the bytes at the pc and moves the pc past them. -/
theorem fetchBytes_allocated : ∀ (n : Nat) (s : State), allocatedAtPc s n →
    fetchBytes n s = .ok (bytesAtPc s n, advance s n)
  | 0, s, _ => by simp [fetchBytes, bytesAtPc, advance, State.setPc]
  | n + 1, s, h => by
    simp only [fetchBytes, fetch8_ok (allocatedAtPc_head h), fetchBytes_allocated n _ (allocatedAtPc_tail h),
      bytesAtPc_succ, advance_advance]

/-- A fetch that faults does so for an address out of range, and fetches at least one byte. -/
theorem fetchBytes_error : ∀ (n : Nat) (s : State) (e : Trap), fetchBytes n s = .error e →
    0 < n ∧ ∃ a : Word, s.cfg.memSize ≤ a.toNat ∧ e = ⟨.memoryRange, a⟩
  | 0, s, e, h => by simp [fetchBytes] at h
  | n + 1, s, e, h => by
    refine ⟨by omega, ?_⟩
    rcases Nat.lt_or_ge s.pc.toNat s.cfg.memSize with h1 | h1
    · simp only [fetchBytes, fetch8_ok h1] at h
      split at h
      · rename_i e' he
        obtain ⟨-, a, h2, h3⟩ := fetchBytes_error n _ _ he
        exact ⟨a, h2, Except.error.inj h ▸ h3⟩
      · simp at h
    · simp only [fetchBytes, fetch8_bad h1] at h
      refine ⟨s.pc.setWidth 64, ?_, (Except.error.inj h).symm⟩
      simp only [BitVec.toNat_setWidth]
      omega

/-- A front part that completes found the instruction's opcode byte at the pc. -/
theorem fetchInstr_ok {s : State} {i : Instr} (h : fetchInstr s = .ok i) :
    s.pc.toNat < s.cfg.memSize ∧ s.mem.read s.pc.toNat = i.opcode.code := by
  rcases Nat.lt_or_ge s.pc.toNat s.cfg.memSize with h1 | h1
  · refine ⟨h1, ?_⟩
    simp only [fetchInstr, fetch8_ok h1] at h
    split at h
    · simp at h
    · rename_i o ho
      split at h
      · simp at h
      · rw [← Except.ok.inj h, ← code_of_decodeOpcode ho]
        simp [Opcode.instr]
  · simp [fetchInstr, fetch8_bad h1] at h

/-- The three ways a front part faults: the opcode fetch, the decoding, an operand fetch. -/
theorem fetchInstr_error {s : State} {f : FetchFault} (h : fetchInstr s = .error f) :
    (s.cfg.memSize ≤ s.pc.toNat ∧ f = ⟨none, ⟨.memoryRange, s.pc.setWidth 64⟩⟩) ∨
      (s.pc.toNat < s.cfg.memSize ∧ decodeOpcode (s.mem.read s.pc.toNat) = none ∧
        f = ⟨some (s.mem.read s.pc.toNat), ⟨.unknownOpcode, (s.mem.read s.pc.toNat).setWidth 64⟩⟩) ∨
      ∃ (o : Opcode) (a : Word), s.pc.toNat < s.cfg.memSize ∧ s.mem.read s.pc.toNat = o.code ∧ 1 < o.length ∧
        s.cfg.memSize ≤ a.toNat ∧ f = ⟨some o.code, ⟨.memoryRange, a⟩⟩ := by
  rcases Nat.lt_or_ge s.pc.toNat s.cfg.memSize with h1 | h1
  · right
    simp only [fetchInstr, fetch8_ok h1] at h
    split at h
    · exact .inl ⟨h1, ‹_›, (Except.error.inj h).symm⟩
    · rename_i o ho
      split at h
      · rename_i e he
        obtain ⟨h0, a, h2, rfl⟩ := fetchBytes_error _ _ _ he
        have hc := code_of_decodeOpcode ho
        refine .inr ⟨o, a, h1, hc.symm, ?_, h2, ?_⟩
        · simp only [Opcode.length]
          omega
        · rw [hc]
          exact (Except.error.inj h).symm
      · simp at h
  · simp only [fetchInstr, fetch8_bad h1] at h
    exact .inl ⟨h1, (Except.error.inj h).symm⟩

/-- Everything a step with a next state can be: from a Running machine, the meaning of the fetched instruction, or the
fault of the front part. -/
theorem step_cases {s t : State} (h : step s = .next t) :
    s.run = .running ∧ ((∃ i, fetchInstr s = .ok i ∧ exec i s = .next t) ∨
      ∃ f, fetchInstr s = .error f ∧ t = raise s f.opcode f.trap) := by
  unfold step at h
  split at h
  · rename_i hr
    refine ⟨hr, ?_⟩
    split at h
    · exact .inl ⟨_, ‹_›, h⟩
    · exact .inr ⟨_, ‹_›, (Host.Outcome.next.inj h).symm⟩
  · simp at h
  · simp at h

end Sys2Proof.Machine
end

