-- ==== Sys2Proof/Tests/Slice0.lean ====
section
/-! SUPPORT. Tests of the model. Expected values are the spec's own: E1 to E25, T1 to T88, S1, S2 of
spec/95_test_vectors.md and the examples of the instruction rules; then, for each statement with premises, states and
operands that meet them, clause by clause. -/

namespace Sys2Proof.Tests

open Sys2Proof Sys2Proof.Machine

/-! ### Decoding -/

theorem test_decode_nop : decode [0x00] = .ok (.nop, []) := by decide
theorem test_decode_set : decode [0x01, 3, 0, 0, 0, 0, 0, 0, 1, 2] = .ok (.set 3 258, []) := by decide
theorem test_decode_set_extreme :
    decode [0x01, 0x0F, 255, 255, 255, 255, 255, 255, 255, 255] = .ok (.set 15 0xFFFFFFFFFFFFFFFF, []) := by decide
theorem test_decode_add : decode [0x02, 2, 0, 1] = .ok (.add 2 0 1, []) := by decide
theorem test_decode_sub : decode [0x03, 2, 0, 1] = .ok (.sub 2 0 1, []) := by decide
theorem test_decode_ld : decode [0x11, 3, 0, 0, 0, 0, 0, 0, 2, 0] = .ok (.ld 3 512, []) := by decide
theorem test_decode_sto : decode [0x12, 0, 0, 0, 0, 0, 0, 0, 2, 0] = .ok (.sto 0 512, []) := by decide
theorem test_decode_ldr : decode [0x21, 5, 4] = .ok (.ldr 5 4, []) := by decide
theorem test_decode_str : decode [0x22, 0, 1] = .ok (.str 0 1, []) := by decide
theorem test_decode_lsl : decode [0x31, 0, 1] = .ok (.lsl 0 1, []) := by decide
theorem test_decode_lsr : decode [0x32, 0, 1] = .ok (.lsr 0 1, []) := by decide
theorem test_decode_jmp : decode [0x41, 0, 0, 0, 0, 0, 0, 2, 0] = .ok (.jmp 512, []) := by decide
theorem test_decode_jlt : decode [0x42, 0, 1, 0, 0, 0, 0, 0, 0, 2, 0] = .ok (.jlt 0 1 512, []) := by decide
theorem test_decode_jle : decode [0x43, 0, 1, 0, 0, 0, 0, 0, 0, 2, 0] = .ok (.jle 0 1 512, []) := by decide
theorem test_decode_jgt : decode [0x44, 0, 1, 0, 0, 0, 0, 0, 0, 2, 0] = .ok (.jgt 0 1 512, []) := by decide
theorem test_decode_jge : decode [0x45, 0, 1, 0, 0, 0, 0, 0, 0, 2, 0] = .ok (.jge 0 1 512, []) := by decide
theorem test_decode_jeq : decode [0x46, 0, 1, 0, 0, 0, 0, 0, 0, 2, 0] = .ok (.jeq 0 1 512, []) := by decide
theorem test_decode_jne : decode [0x47, 0, 1, 0, 0, 0, 0, 0, 0, 2, 0] = .ok (.jne 0 1 512, []) := by decide
theorem test_decode_jpr : decode [0x48, 4] = .ok (.jpr 4, []) := by decide
theorem test_decode_push : decode [0x51, 0] = .ok (.push 0, []) := by decide
theorem test_decode_pop : decode [0x52, 2] = .ok (.pop 2, []) := by decide
theorem test_decode_call : decode [0x61, 0, 0, 0, 0, 0, 0, 0, 9] = .ok (.call 9, []) := by decide
theorem test_decode_ret : decode [0x62] = .ok (.ret, []) := by decide
theorem test_decode_tx : decode [0xA1, 2] = .ok (.tx 2, []) := by decide
theorem test_decode_tx_unnamed : decode [0xA1, 0xFF] = .ok (.tx 255, []) := by decide
theorem test_decode_rx : decode [0xA2, 0] = .ok (.rx 0, []) := by decide
theorem test_decode_hlt : decode [0xFF] = .ok (.hlt, []) := by decide

/-- 30 R105: `add r1` then `tx r2` is ADD with three operand bytes. -/
theorem test_decode_leaves_rest : decode [0x02, 0x01, 0xA1, 0x02, 0xFF] = .ok (.add 1 0xA1 2, [0xFF]) := by decide

/-- 30 R91, 95 T81 to T83. -/
theorem test_decode_unknown :
    decode [0x04, 0, 0] = .error (.unknownOpcode 0x04) ∧ decode [0xA0] = .error (.unknownOpcode 0xA0) ∧
      decode [0xFE] = .error (.unknownOpcode 0xFE) := by decide
theorem test_decode_truncated : decode [] = .error .empty ∧ decode [0x02, 1, 2] = .error (.truncated 0x02) := by decide

/-- The operand bytes above the table's bits are 0 (opcode_table.json gives the opcode byte alone). -/
theorem test_tableWord : decodeTableWord 8 0x02 = some (.add 0 0 0) ∧ decodeTableWord 16 0x0502 = some (.add 5 0 0) ∧
    decodeTableWord 8 0x04 = none := by decide

/-! ### Well-formedness: a term that each check refuses -/

theorem test_registersNamed : (Instr.add 15 14 0).registersNamed = true ∧ (Instr.add 16 0 0).registersNamed = false ∧
    (Instr.tx 255).registersNamed = false := by decide
theorem test_config_wf : Config.default.wf = true ∧ { Config.default with memSize := 8 }.wf = false ∧
    { Config.default with memSize := 2 ^ 64 }.wf = true ∧ { Config.default with memSize := 2 ^ 64 + 1 }.wf = false := by
  decide
theorem test_imageLoadable :
    imageLoadable Config.default (List.replicate 9 0) = true ∧ imageLoadable Config.default (List.replicate 8 0) = false ∧
      imageLoadable { Config.default with memSize := 9 } (List.replicate 10 0) = false := by decide

/-! ### Single steps (spec/95_test_vectors.md part 2) -/

/-- The start state of a vector: the bytes at 256, pc 256, all else as after reset. -/
def at256 (bs : List Byte) : State := placeInstr { State.reset with pc := 256 } bs

/-- A general register set. -/
def withReg (i : Fin 15) (v : Word) (s : State) : State := s.setReg i v

/-- The state of an outcome, where it is a next state. -/
def nextOf : Host.Outcome State Fault Refusal → Option State
  | .next t => some t
  | .fault _ => none
  | .refused _ => none

/-- What a vector looks at in the state a step leaves. -/
def look {α : Type} (f : State → α) (s : State) : Option α := (nextOf (step s)).map f

/-- The fault of a step: kind, info, opcode, pc0. -/
def faultOf (s : State) : Option (Option (FaultKind × Word × Option Byte × Pc)) :=
  look (fun t => if t.run = .faulted then t.fault.map fun r => (r.kind, r.info, r.opcode, r.pc0) else none) s

theorem test_T1_nop : look (·.pc) (at256 [0x00]) = some 257 := by decide
theorem test_T2_set : look (fun t => (t.regs[3], t.pc)) (at256 [0x01, 3, 0xFF, 0xEE, 0xDD, 0xCC, 0xBB, 0xAA, 0x99, 0x88]) =
    some (0xFFEEDDCCBBAA9988, 266) := by decide
theorem test_T3_set_pc : look (·.pc) (at256 [0x01, 0x0F, 0, 0, 0, 1, 0, 0, 2, 0]) = some 512 := by decide
theorem test_T5_add : look (fun t => (t.regs[2], t.pc))
    (withReg 0 0xFFFFFFFFFFFFFFFF (withReg 1 1 (at256 [0x02, 2, 0, 1]))) = some (0, 260) := by decide
theorem test_T9_add_pc : look (fun t => (t.regs[2], t.pc)) (withReg 2 0x10 (at256 [0x02, 15, 15, 2])) =
    some (0x10, 276) := by decide
theorem test_T10_add_fault : faultOf (at256 [0x02, 16, 17, 18]) = some (some (.registerIndex, 17, some 0x02, 256)) := by
  decide
theorem test_T12_sub : look (fun t => (t.regs[2], t.pc)) (withReg 1 1 (at256 [0x03, 2, 0, 1])) =
    some (0xFFFFFFFFFFFFFFFF, 260) := by decide
theorem test_T14_sub : look (fun t => t.regs[2]) (withReg 0 5 (withReg 1 3 (at256 [0x03, 2, 0, 1]))) = some 2 := by
  decide
theorem test_T15_ld : look (fun t => (t.regs[3], t.pc))
    (withReg 3 0xFFFFFFFFFFFFFFFF { at256 [0x11, 3, 0, 0, 0, 0, 0, 0, 2, 0] with
      mem := (at256 [0x11, 3, 0, 0, 0, 0, 0, 0, 2, 0]).mem.write 512 0xAB }) = some (0xAB, 266) := by decide
theorem test_T17_ld_fault : faultOf (at256 [0x11, 16, 0, 0, 0, 1, 0, 0, 0, 0]) =
    some (some (.memoryRange, 0x100000000, some 0x11, 256)) := by decide
theorem test_T18_sto : look (fun t => (t.mem.read 512, t.regs[0], t.pc))
    (withReg 0 0x1234 (at256 [0x12, 0, 0, 0, 0, 0, 0, 0, 2, 0])) = some (0x34, 0x1234, 266) := by decide
theorem test_T19_sto_pc : look (fun t => t.mem.read 512) (at256 [0x12, 15, 0, 0, 0, 0, 0, 0, 2, 0]) = some 0x0A := by
  decide
theorem test_T23_ldr_pc : look (fun t => (t.regs[5], t.pc)) (at256 [0x21, 5, 15, 0x7E]) = some (0x7E, 259) := by decide
theorem test_T25_ldr_fault : faultOf (withReg 4 0x100000000 (at256 [0x21, 16, 4])) =
    some (some (.memoryRange, 0x100000000, some 0x21, 256)) := by decide
theorem test_T26_str : look (fun t => (t.mem.read 300, t.pc)) (withReg 0 0xFF41 (withReg 1 300 (at256 [0x22, 0, 1]))) =
    some (0x41, 259) := by decide
theorem test_T28_str_fault : faultOf (at256 [0x22, 16, 17]) = some (some (.registerIndex, 16, some 0x22, 256)) := by
  decide
theorem test_T30_lsl : look (fun t => (t.regs[0], t.pc)) (withReg 0 3 (withReg 1 63 (at256 [0x31, 0, 1]))) =
    some (0x8000000000000000, 259) := by decide
theorem test_T32_lsl_64 : look (fun t => t.regs[0]) (withReg 0 0xFFFFFFFFFFFFFFFF (withReg 1 64 (at256 [0x31, 0, 1]))) =
    some 0 := by decide
theorem test_T34_lsr : look (fun t => (t.regs[0], t.pc))
    (withReg 0 0x8000000000000000 (withReg 1 1 (at256 [0x32, 0, 1]))) = some (0x4000000000000000, 259) := by decide
theorem test_T36_lsr_all : look (fun t => t.regs[0])
    (withReg 0 0xFFFFFFFFFFFFFFFF (withReg 1 0xFFFFFFFFFFFFFFFF (at256 [0x32, 0, 1]))) = some 0 := by decide
theorem test_T39_jmp : look (·.pc) (at256 [0x41, 0, 0, 0, 1, 0, 0, 0, 0x14]) = some 20 := by decide

/-- The four rows of T40 for one conditional jump: the pc after the step. -/
def row40 (op : Byte) : List (Option Pc) :=
  [(3, 5), (5, 5), (5, 3), (0xFFFFFFFFFFFFFFFF, 0)].map fun ab : Word × Word =>
    look (·.pc) (withReg 0 ab.1 (withReg 1 ab.2 (at256 [op, 0, 1, 0, 0, 0, 0, 0, 0, 2, 0])))

theorem test_T40_jlt : row40 0x42 = [some 512, some 267, some 267, some 267] := by decide
theorem test_T40_jle : row40 0x43 = [some 512, some 512, some 267, some 267] := by decide
theorem test_T40_jgt : row40 0x44 = [some 267, some 267, some 512, some 512] := by decide
theorem test_T40_jge : row40 0x45 = [some 267, some 512, some 512, some 512] := by decide
theorem test_T40_jeq : row40 0x46 = [some 267, some 512, some 267, some 267] := by decide
theorem test_T40_jne : row40 0x47 = [some 512, some 267, some 512, some 512] := by decide
theorem test_T43_jlt_fault : faultOf (withReg 0 9 (at256 [0x42, 0, 16, 0, 0, 0, 0, 0, 0, 2, 0])) =
    some (some (.registerIndex, 16, some 0x42, 256)) := by decide
theorem test_T44_jgt_pc : look (·.pc) (at256 [0x44, 15, 0, 0, 0, 0, 0, 0, 0, 2, 0]) = some 512 := by decide
theorem test_T45_jpr : look (fun t => (t.pc, t.regs[4])) (withReg 4 0x100000039 (at256 [0x48, 4])) =
    some (57, 0x100000039) := by decide
theorem test_T46_jpr_pc : look (·.pc) (at256 [0x48, 15]) = some 258 := by decide
theorem test_T52_push_pc : look (fun t => (t.stack, t.pc)) (at256 [0x51, 15]) = some ([258], 258) := by decide
theorem test_T53_push_full :
    faultOf { at256 [0x51, 0] with stack := [1, 2], cfg := { Config.default with stackDepth := some 2 } } =
      some (some (.stackOverflow, 0, some 0x51, 256)) := by decide
theorem test_T55_pop : look (fun t => (t.regs[2], t.stack, t.pc)) { at256 [0x52, 2] with stack := [7, 0x12340] } =
    some (0x12340, [7], 258) := by decide
theorem test_T59_pop_keeps_entry :
    look (fun t => (t.stack, t.fault.map (·.kind))) { at256 [0x52, 16] with stack := [7] } =
      some ([7], some .registerIndex) := by decide
theorem test_T61_call : look (fun t => (t.stack, t.pc)) (at256 [0x61, 0, 0, 0, 0, 0, 0, 2, 0]) =
    some ([265], 512) := by decide
theorem test_T62_call_target :
    faultOf { at256 [0x61, 0, 0, 0, 0, 0, 0, 2, 0] with cfg := { Config.default with callTargets := some [9] } } =
      some (some (.callTarget, 512, some 0x61, 256)) := by decide
theorem test_T64_ret_empty : faultOf (at256 [0x62]) = some (some (.stackUnderflow, 0, some 0x62, 256)) := by decide
theorem test_T65_ret : look (fun t => (t.pc, t.stack)) { at256 [0x62] with stack := [0x0000000700000044] } =
    some (68, []) := by decide
theorem test_T71_tx : look (fun t => (t.out, t.pc)) (withReg 2 0x1F08 (at256 [0xA1, 2])) = some ([0x08], 258) := by
  decide
theorem test_T72_tx_pc : look (·.out) (at256 [0xA1, 15]) = some [0x02] := by decide
theorem test_T74_rx : look (fun t => (t.regs[0], t.inp, t.pc))
    (withReg 0 0xFFFFFFFFFFFFFFFF { at256 [0xA2, 0] with inp := [0x41, 0x42] }) = some (0x41, [0x42], 258) := by decide
theorem test_T77_rx_keeps_byte :
    look (fun t => (t.inp, t.fault.map (·.kind))) { at256 [0xA2, 16] with inp := [0x41] } =
      some ([0x41], some .registerIndex) := by decide
theorem test_T79_hlt : look (fun t => (t.run, t.pc, t.fault)) (at256 [0xFF]) = some (.halted, 257, none) := by decide

/-! ### Fetch and the edges of memory -/

/-- The parameters with another `MEM_SIZE`. -/
def sized (n : Nat) : Config := { Config.default with memSize := n }

theorem test_T81_unknown : faultOf (at256 [0x04]) = some (some (.unknownOpcode, 0x04, some 0x04, 256)) := by decide
theorem test_T84_opcode_fetch : faultOf { State.reset with pc := 256, cfg := sized 256 } =
    some (some (.memoryRange, 256, none, 256)) := by decide
theorem test_T85_operand_fetch :
    faultOf { State.reset with pc := 252, cfg := sized 256, mem := Memory.writeList [] 252 [0x01] } =
      some (some (.memoryRange, 256, some 0x01, 252)) := by decide
theorem test_T86_wrap : look (fun t => (t.regs[0], t.pc))
    { State.reset with pc := 0xFFFFFFFE, mem := Memory.writeList [] 0xFFFFFFFE [0x01] |>.write 7 0x2A } =
      some (42, 8) := by decide
theorem test_T87_wrap : look (·.pc) { State.reset with pc := 0xFFFFFFFF } = some 0 := by decide

/-! ### The assembler and the boot -/

/-- S1 of spec/95_test_vectors.md. -/
theorem test_S1_image :
    assemble '%' ["set r0 5".toList, "set r1 3".toList, "add r2 r0 r1".toList, "tx r2".toList, "halt".toList] =
      .ok ([0, 0, 0, 0, 0, 0, 0, 0, 0] ++ [0x01, 0, 0, 0, 0, 0, 0, 0, 0, 5] ++ [0x01, 1, 0, 0, 0, 0, 0, 0, 0, 3] ++
        [0x02, 2, 0, 1] ++ [0xA1, 2] ++ [0xFF] ++ [0xFF]) := by decide

/-- S2b: the entry directive and the call directive. -/
theorem test_S2b_image :
    assemble '%' ["name foo".toList, "set r0 1".toList, "return".toList, "entry".toList, "call foo".toList,
        "halt".toList] =
      .ok ([0x41, 0, 0, 0, 0, 0, 0, 0, 20] ++ [0x01, 0, 0, 0, 0, 0, 0, 0, 0, 1] ++ [0x62] ++
        [0x61, 0, 0, 0, 0, 0, 0, 0, 9] ++ [0xFF] ++ [0xFF]) := by decide

/-- 30 R95: the token before a `#` that no space has ended is lost. -/
theorem test_comment : tokenize ["add r1 r2 r3#x".toList] = ["add".toList, "r1".toList, "r2".toList] := by decide

/-- 30 R101, R106. -/
theorem test_badRegister : assemble '%' ["tx r256".toList] = .error (.badRegister "r256".toList) ∧
    assemble '%' ["call foo".toList] = .error (.undeclaredFunction "foo".toList) := by decide

/-- 70 R230, R232. -/
theorem test_boot :
    (bootImage (Vector.replicate 15 7) [] [0, 0, 0, 0, 0, 0, 0, 0, 0, 0xFF] { State.reset with out := [1] }).map
        (fun t => (t.mem, t.pc, t.out, t.regs[14])) = some ([(9, 0xFF)], 0, [], 7) ∧
      bootImage (Vector.replicate 15 0) [] [0xFF] State.reset = none := by decide

/-- The word of an opcode-table row runs as the first instruction after reset. -/
theorem test_withFetchWord : look (·.run) (State.reset.withFetchWord 8 0xFF) = some .halted := by decide

/-! ### The premises of the statements can be met -/

theorem next_of {α : Type} {f : State → α} {v : α} {o : Host.Outcome State Fault Refusal}
    (h : (nextOf o).map f = some v) : ∃ t, o = .next t ∧ f t = v := by
  cases o with
  | next t => exact ⟨t, rfl, by simpa [nextOf] using h⟩
  | fault _ => simp [nextOf] at h
  | refused _ => simp [nextOf] at h

/-- Three instructions of different formats with a byte after them. -/
theorem witness_DecodedBytesAreTheEncoding :
    decode [0x62, 7] = .ok (.ret, [7]) ∧ decode [0x21, 5, 255, 7] = .ok (.ldr 5 255, [7]) ∧
      decode [0x41, 255, 0, 0, 0, 0, 0, 0, 1, 7] = .ok (.jmp 0xFF00000000000001, [7]) ∧
      encode (.tx 255) = encode (.tx 255) := by decide

/-- At the last allocated address, on the first and the last unknown opcode. -/
theorem witness_UnknownOpcodesFault :
    let s : Byte → State := fun b => { State.reset with pc := 255, cfg := sized 256, mem := [(255, b)] }
    ((s 0x04).run = .running ∧ (s 0x04).pc.toNat < (s 0x04).cfg.memSize ∧
        decodeOpcode ((s 0x04).mem.read 255) = none) ∧
      decodeOpcode ((s 0xFE).mem.read 255) = none ∧ (s 0xFE).pc.toNat = 255 := by decide

/-- An instruction that ends at the last allocated address, and one that wraps past the top (T86). -/
theorem witness_StepRunsDecodedInstruction :
    let s : State := { State.reset with pc := 252, cfg := sized 256, mem := [(252, 2), (253, 2), (255, 1)] }
    let t : State := { State.reset with pc := 0xFFFFFFFE, mem := [(7, 0x2A), (0xFFFFFFFE, 1)] }
    (s.run = .running ∧ allocatedAtPc s (Instr.add 2 0 1).length ∧
        decode (bytesAtPc s (Instr.add 2 0 1).length) = .ok (.add 2 0 1, [])) ∧
      t.run = .running ∧ allocatedAtPc t (Instr.set 0 42).length ∧
        decode (bytesAtPc t (Instr.set 0 42).length) = .ok (.set 0 42, []) := by decide

/-- T84: the pc at `MEM_SIZE`. -/
theorem witness_OpcodeFetchOutOfRangeFaults :
    let s : State := { State.reset with pc := 256, cfg := sized 256 }
    s.run = .running ∧ s.cfg.memSize ≤ s.pc.toNat := by decide

/-- T85, and the first and the last operand byte outside. -/
theorem witness_OperandFetchOutOfRangeFaults :
    ∀ k ∈ [1, 4, 9],
      let s : State := { State.reset with pc := 256 - BitVec.ofNat 32 k, cfg := sized 256, mem := [(256 - k, 1)] }
      s.run = .running ∧ allocatedAtPc s k ∧ 0 < k ∧ k < Opcode.set.length ∧
        s.mem.read s.pc.toNat = Opcode.set.code ∧ s.cfg.memSize ≤ (s.pc + BitVec.ofNat 32 k).toNat := by decide

theorem witness_FetchEightReadsAndAdvances :
    let s : Pc → State := fun p => { State.reset with pc := p, cfg := sized 256 }
    (s 255).pc.toNat < (s 255).cfg.memSize ∧ (s 256).cfg.memSize ≤ (s 256).pc.toNat := by decide

/-- Eight bytes up to the last address; the first and the eighth byte outside. -/
theorem witness_FetchSixtyFourIsBigEndian :
    let s : Pc → State := fun p => { State.reset with pc := p, cfg := sized 256 }
    allocatedAtPc (s 248) 8 ∧
      (allocatedAtPc (s 256) 0 ∧ (s 256).cfg.memSize ≤ ((s 256).pc + BitVec.ofNat 32 0).toNat) ∧
      allocatedAtPc (s 249) 7 ∧ (s 249).cfg.memSize ≤ ((s 249).pc + BitVec.ofNat 32 7).toNat := by decide

theorem witness_RegisterReadByIndex :
    (14 : Byte).toNat ≤ 14 ∧ (15 : Byte).toNat = 15 ∧ 15 < (16 : Byte).toNat ∧
      readReg (withReg 14 9 State.reset) 14 = .ok 9 ∧ readReg State.reset 16 = .error ⟨.registerIndex, 16⟩ := by decide

theorem witness_RegisterWriteByIndex :
    (0 : Byte).toNat ≤ 14 ∧ (14 : Byte).toNat ≤ 14 ∧ (15 : Byte).toNat = 15 ∧ 15 < (16 : Byte).toNat ∧
      15 < (255 : Byte).toNat := by decide

theorem witness_RegisterFifteenIsThePcView : (0xFFFFFFFF : Word).toNat < 2 ^ 32 ∧ (0 : Word).toNat < 2 ^ 32 := by decide

/-- The last allocated address and the first that is not, and one above 2^32 (20 R52). -/
theorem witness_MemoryReadChecksRange :
    (0xFFFFFFFF : Word).toNat < State.reset.cfg.memSize ∧ State.reset.cfg.memSize ≤ (0x100000000 : Word).toNat ∧
      State.reset.cfg.memSize ≤ (0x100000005 : Word).toNat := by decide

theorem witness_MemoryWriteChangesOneByte :
    let s : State := { State.reset with mem := [(9, 0xFF)], cfg := sized 256 }
    s.mem.wf ∧ (255 : Word).toNat < s.cfg.memSize ∧ s.cfg.memSize ≤ (256 : Word).toNat := by decide

/-- T53 and one entry fewer; unbounded. -/
theorem witness_PushRaisesOnlyWhenFull :
    let s : List Word → State := fun st =>
      { State.reset with stack := st, cfg := { Config.default with stackDepth := some 2 } }
    (stackFits (s [1, 2]) = true ∧ (s [1, 2]).cfg.stackDepth = some (s [1, 2]).stack.length) ∧
      (stackFits (s [1]) = true ∧ (s [1]).cfg.stackDepth ≠ some (s [1]).stack.length) ∧
      stackFits State.reset = true ∧ State.reset.cfg.stackDepth ≠ some State.reset.stack.length := by decide

theorem witness_PopTakesTheTopEntry :
    State.reset.stack = [] ∧ { State.reset with stack := [7, 9] }.stack = [7] ++ [9] ∧
      pushWord State.reset 9 = .ok { State.reset with stack := [9] } := by decide

theorem witness_ReceiveByteByPolicy :
    { State.reset with inp := [0x41, 0x42] }.inp = 0x41 :: [0x42] ∧
      (State.reset.inp = [] ∧ State.reset.cfg.rxEmpty = .fault) ∧
      let s : State := { State.reset with cfg := { Config.default with rxEmpty := .block } }
      s.inp = [] ∧ s.cfg.rxEmpty = .block := by decide

/-- The boundary indices that name a register and those that do not: the premises of SetWritesLiteral,
AddWritesWrappedSum, SubWritesWrappedDifference, ShiftsWriteLogicalResult, JumpsTakeLowTargetBits,
ConditionalJumpsFollowTheirRelation, TransmitAppendsLowByte and ArithmeticFaultOrder, which no state restricts. -/
theorem witness_namesRegister :
    namesRegister 0 = true ∧ namesRegister 14 = true ∧ namesRegister 15 = true ∧ namesRegister 16 = false ∧
      namesRegister 255 = false := by decide

/-- Both cases of the borrow and of the relations (T40); a shift by 63 and by 64. -/
theorem witness_operandsByCase :
    let s : State := withReg 0 5 (withReg 1 63 (withReg 2 64 State.reset))
    (regOperand .sub s 0).toNat ≤ (regOperand .sub s 1).toNat ∧ ¬(regOperand .sub s 1).toNat ≤ (regOperand .sub s 0).toNat ∧
      (regOperand .lsl s 1).toNat < 64 ∧ ¬(regOperand .lsl s 2).toNat < 64 ∧
      (regOperand .jlt s 0).toNat < (regOperand .jlt s 1).toNat ∧
      (regOperand .jge s 1).toNat = (regOperand .jge s 1).toNat := by decide

/-- The last allocated address, absolute and through a pointer. -/
theorem witness_LoadsWriteZeroExtendedByte :
    let s : State := withReg 4 0xFFFFFFFF State.reset
    (namesRegister 15 = true ∧ (0xFFFFFFFF : Word).toNat < s.cfg.memSize) ∧
      namesRegister 5 = true ∧ namesRegister 4 = true ∧ (regOperand .ldr s 4).toNat < s.cfg.memSize := by decide

theorem witness_StoresWriteLowByte :
    let s : State := withReg 4 0xFFFFFFFF { State.reset with mem := [(9, 0xFF)] }
    (s.mem.wf ∧ namesRegister 15 = true ∧ (0xFFFFFFFF : Word).toNat < s.cfg.memSize) ∧
      namesRegister 4 = true ∧ (regOperand .str s 4).toNat < s.cfg.memSize ∧ (regOperand .str s 15).toNat < s.cfg.memSize := by
  decide

theorem witness_PushAppendsTheRegister :
    let s : State := { State.reset with stack := [1], cfg := { Config.default with stackDepth := some 2 } }
    namesRegister 15 = true ∧ stackFull s = false ∧ stackFull State.reset = false := by decide

theorem witness_PopWritesTheTopEntry :
    { State.reset with stack := [7, 0x12340] }.stack = [7] ++ [0x12340] ∧ namesRegister 15 = true ∧
      namesRegister 2 = true := by decide

/-- With the set of targets given and without it. -/
theorem witness_CallPushesReturnAddress :
    let s : State := { State.reset with cfg := { Config.default with callTargets := some [9, 512] } }
    (stackFull s = false ∧ ∀ targets, s.cfg.callTargets = some targets → 512 ∈ targets) ∧
      stackFull State.reset = false ∧ ∀ targets, State.reset.cfg.callTargets = some targets → 512 ∈ targets := by
  refine ⟨⟨rfl, fun targets h => ?_⟩, rfl, fun targets h => ?_⟩
  · cases h
    decide
  · cases h

theorem witness_RetJumpsToTheTopEntry :
    { State.reset with stack := [5, 265] }.stack = [5] ++ [265] ∧ State.reset.stack = [] := by decide

/-- A zero byte at the last allocated address, and the pc one further. -/
theorem witness_NopOnlyAdvances :
    let s : Pc → State := fun p => { State.reset with pc := p, cfg := sized 256 }
    (s 255).run = .running ∧ (s 255).pc.toNat < (s 255).cfg.memSize ∧ (s 255).mem.read (s 255).pc.toNat = 0 ∧
      (s 256).cfg.memSize ≤ (s 256).pc.toNat := by decide

theorem witness_ReturnUndoesCall :
    ∃ t, exec (.call 512) State.reset = .next t ∧ t.run = .running ∧ { State.reset with stack := t.stack }.stack = t.stack :=
  ⟨_, rfl, rfl, rfl⟩

theorem witness_ReceiveWritesNextByte :
    { State.reset with inp := [0x41, 0x42] }.inp = 0x41 :: [0x42] ∧ namesRegister 15 = true := by decide

/-- The clauses that ask for an address outside the memory, an address inside it and an unnamed register. -/
theorem witness_LoadStoreFaultOrder :
    let s : State := withReg 4 0x100000000 (withReg 5 0xFFFFFFFF State.reset)
    s.cfg.memSize ≤ (0x100000000 : Word).toNat ∧ (0xFFFFFFFF : Word).toNat < s.cfg.memSize ∧
      namesRegister 16 = false ∧ namesRegister 15 = true ∧
      (namesRegister 4 = true ∧ s.cfg.memSize ≤ (regOperand .ldr s 4).toNat) ∧
      (namesRegister 5 = true ∧ (regOperand .ldr s 5).toNat < s.cfg.memSize) ∧
      s.cfg.memSize ≤ (regOperand .str s 4).toNat := by decide

theorem witness_JumpFaultOrder :
    Instr.jne 14 16 512 ∈ [Instr.jlt 14 16 512, .jle 14 16 512, .jgt 14 16 512, .jge 14 16 512, .jeq 14 16 512,
      .jne 14 16 512] ∧ namesRegister 14 = true ∧ namesRegister 16 = false := by decide

/-- A full stack and an empty one; a set of targets with one inside and one outside. -/
theorem witness_StackFaultOrder :
    let full : State :=
      { State.reset with stack := [1], cfg := { Config.default with stackDepth := some 1, callTargets := some [9] } }
    (namesRegister 15 = true ∧ stackFull full = true) ∧ State.reset.stack = [] ∧
      (full.stack ≠ [] ∧ namesRegister 16 = false) ∧ (full.cfg.callTargets = some [9] ∧ 512 ∉ ([9] : List Word)) ∧
      9 ∈ ([9] : List Word) ∧
      let open' : State := { State.reset with stack := [1], cfg := { Config.default with stackDepth := some 1 } }
      open'.cfg.callTargets = none ∧ stackFull open' = true := by decide

theorem witness_ChannelFaultOrder :
    namesRegister 16 = false ∧ (State.reset.inp = [] ∧ State.reset.cfg.rxEmpty = .fault) ∧
      { State.reset with inp := [0x41] }.inp ≠ [] := by decide

/-- The neighbours of the destination; an instruction that faults is a next state too. -/
theorem witness_OnlyTheDestinationRegisterChanges :
    (∃ t, exec (.set 3 5) State.reset = .next t ∧ t.regs[3] = 5) ∧
      (∀ d, destination (.set 3 5) = some d → d.toNat ≠ (4 : Fin 15).val) ∧
      ∃ t, exec (.set 16 5) State.reset = .next t ∧ t.run = .faulted := by
  refine ⟨⟨_, rfl, rfl⟩, fun d h => ?_, _, rfl, rfl⟩
  cases h
  decide

theorem witness_OnlyTheStoredByteChanges :
    (∃ t, exec (.sto 15 512) State.reset = .next t ∧ t.mem.read 512 = 0x0A) ∧
      storeAddress State.reset (.sto 15 512) ≠ some 511 ∧ storeAddress State.reset (.sto 15 512) ≠ some 513 ∧
      storeAddress State.reset (.str 0 15) = some 3 ∧ storeAddress State.reset .nop ≠ some 0 := by
  exact ⟨next_of (f := fun t => t.mem.read 512) (by decide), by decide⟩

theorem witness_OtherStateChangesOnlyByItsWriters :
    (∃ t, exec .nop State.reset = .next t ∧ t.run = .running) ∧ (∃ t, exec .hlt State.reset = .next t ∧ t.run = .halted) ∧
      (∃ t, exec (.tx 16) State.reset = .next t ∧ t.run = .faulted) ∧
      Instr.nop.opcode ∉ [Opcode.push, .pop, .call, .ret] ∧ Instr.nop.opcode ≠ .tx ∧ Instr.nop.opcode ≠ .rx := by
  exact ⟨⟨_, rfl, rfl⟩, ⟨_, rfl, rfl⟩, ⟨_, rfl, rfl⟩, by decide⟩

/-- One that falls through, and the wait of RX. -/
theorem witness_OtherInstructionsFallThrough :
    (∃ t, exec (.add 2 0 1) State.reset = .next t ∧ t.run ≠ .faulted) ∧
      (∃ t, exec (.rx 0) { State.reset with cfg := { Config.default with rxEmpty := .block } } = .next t ∧
        t.run ≠ .faulted) ∧
      State.reset.run ≠ .faulted ∧ destination (.add 2 0 1) ≠ some 15 ∧ destination (.rx 0) ≠ some 15 ∧
      Opcode.add ∉ [Opcode.jmp, .jlt, .jle, .jgt, .jge, .jeq, .jne, .jpr, .call, .ret] := by
  exact ⟨⟨_, rfl, by decide⟩, ⟨_, rfl, by decide⟩, by decide⟩

/-- An instruction that goes on, one that halts and one that faults. -/
theorem witness_NoInstructionReadsRunRecordOrOutput :
    State.reset.run ≠ .faulted ∧ (∃ t, exec (.tx 0) State.reset = .next t ∧ t.run ≠ .faulted) ∧
      (∃ t, exec .hlt State.reset = .next t ∧ t.run = .halted) ∧
      ∃ t, exec (.tx 16) State.reset = .next t ∧ t.run = .faulted :=
  ⟨by decide, ⟨_, rfl, by decide⟩, ⟨_, rfl, rfl⟩, _, rfl, rfl⟩

/-- A fault with an opcode and one without (T81, T84). -/
theorem witness_FaultKeepsAllButTheRecord :
    (∃ t, step (at256 [0x04]) = .next t ∧ t.run = .faulted) ∧ (at256 [0x04]).pc.toNat < (at256 [0x04]).cfg.memSize ∧
      (∃ t, step { State.reset with pc := 256, cfg := sized 256 } = .next t ∧ t.run = .faulted) ∧
      (sized 256).memSize ≤ (256 : Pc).toNat :=
  ⟨next_of (f := (·.run)) (by decide), by decide, next_of (f := (·.run)) (by decide), by decide⟩

/-- What a step from `s` leaves is Faulted with a record of the kind. -/
def FaultsWith (s : State) (k : FaultKind) : Prop :=
  ∃ t, step s = .next t ∧ (t.run, t.fault.map (·.kind)) = (.faulted, some k)

/-- Each of the seven kinds (T81, T84, T4, T56, T53, T62, T75). -/
theorem witness_FaultCodesAndInfo :
    FaultsWith (at256 [0x04]) .unknownOpcode ∧ FaultsWith { State.reset with pc := 256, cfg := sized 256 } .memoryRange ∧
      FaultsWith (at256 [0x01, 16]) .registerIndex ∧ FaultsWith (at256 [0x52, 2]) .stackUnderflow ∧
      FaultsWith { at256 [0x51] with cfg := { Config.default with stackDepth := some 0 } } .stackOverflow ∧
      FaultsWith { at256 [0x61] with cfg := { Config.default with callTargets := some [9] } } .callTarget ∧
      FaultsWith (at256 [0xA2]) .inputUnavailable := by
  refine ⟨next_of ?_, next_of ?_, next_of ?_, next_of ?_, next_of ?_, next_of ?_, next_of ?_⟩ <;> decide

/-- Each of the six kinds an instruction raises itself. -/
theorem witness_InstructionsRaiseOnlyTheirFaults :
    State.reset.run ≠ .faulted ∧ (∃ t, exec (.lsr 0 16) State.reset = .next t ∧ t.run = .faulted) ∧
      (∃ t, exec (.ld 0 0x100000000) State.reset = .next t ∧ t.run = .faulted) ∧
      (∃ t, exec .ret State.reset = .next t ∧ t.run = .faulted) ∧
      (∃ t, exec (.push 0) { State.reset with cfg := { Config.default with stackDepth := some 0 } } = .next t ∧
        t.run = .faulted) ∧
      (∃ t, exec (.call 0) { State.reset with cfg := { Config.default with callTargets := some [9] } } = .next t ∧
        t.run = .faulted) ∧
      ∃ t, exec (.rx 0) State.reset = .next t ∧ t.run = .faulted := by
  refine ⟨by decide, next_of (f := (·.run)) ?_, next_of (f := (·.run)) ?_, next_of (f := (·.run)) ?_,
    next_of (f := (·.run)) ?_, next_of (f := (·.run)) ?_, next_of (f := (·.run)) ?_⟩ <;> decide

theorem witness_RunEndsOnlyByHaltOrFault :
    { State.reset with run := .halted }.run ≠ .running ∧ { State.reset with run := .faulted }.run ≠ .running ∧
      State.reset.run = .running ∧ (∃ t, step (at256 [0xFF]) = .next t ∧ t.run = .halted) ∧
      (∃ t, step (at256 [0x04]) = .next t ∧ t.run = .faulted) ∧ ∃ t, step State.reset = .next t ∧ t.run = .running :=
  ⟨by decide, by decide, by decide, next_of (f := (·.run)) (by decide), next_of (f := (·.run)) (by decide),
    next_of (f := (·.run)) (by decide)⟩

theorem witness_RunningMachineAlwaysSteps : State.reset.run = .running := by decide

theorem witness_OneChannelByteAtMost :
    (∃ t, step (at256 [0xA1, 0]) = .next t ∧ t.out = [0]) ∧
      (∃ t, step { at256 [0xA2, 0] with inp := [0x41] } = .next t ∧ t.inp = []) ∧
      ∃ t, step (at256 [0]) = .next t ∧ t.out = [] :=
  ⟨next_of (f := (·.out)) (by decide), next_of (f := (·.inp)) (by decide), next_of (f := (·.out)) (by decide)⟩

/-- T27: STR through index 15 stores at the address after itself; so does STO with that address. -/
theorem witness_StoreIsSeenByTheNextFetch :
    (at256 [0x22, 0, 15]).mem.wf ∧ (at256 [0x22, 0, 15]).run = .running ∧
      (∃ t, exec (.str 0 15) (at256 [0x22, 0, 15]) = .next t ∧
        (t.run, storeAddress (at256 [0x22, 0, 15]) (.str 0 15) = some t.pc.toNat) = (.running, True)) ∧
      ∃ t, exec (.sto 0 266) (at256 []) = .next t ∧
        (t.run, storeAddress (at256 []) (.sto 0 266) = some t.pc.toNat) = (.running, True) := by
  refine ⟨by decide, by decide, ⟨_, rfl, ?_⟩, _, rfl, ?_⟩
  · exact Prod.ext rfl (eq_true (by decide))
  · exact Prod.ext rfl (eq_true (by decide))

/-- From reset; from a machine with other parameters, a full stack and memory listed up to its last address. -/
theorem witness_StepKeepsTheInvariant :
    let s : State := { State.reset with
      mem := [(0, 0x51), (8, 1)], stack := [1]
      cfg := { memSize := 9, stackDepth := some 1, rxEmpty := .block, callTargets := some [9] } }
    State.reset.Inv ∧ s.Inv ∧ ∃ t, step s = .next t ∧ t.run = .faulted :=
  ⟨by decide, by decide, next_of (f := (·.run)) (by decide)⟩

/-- Nine bytes in nine, one fewer, one more. -/
theorem witness_BootLoadsTheImage :
    let s : State := { State.reset with cfg := sized 9 }
    Memory.wf [(8, 7), (20, 7)] ∧ ¬(9 ≤ (List.replicate 8 (0 : Byte)).length ∧ 8 ≤ s.cfg.memSize) ∧
      (9 ≤ (List.replicate 9 (0 : Byte)).length ∧ (List.replicate 9 (0 : Byte)).length ≤ s.cfg.memSize) ∧
      ¬(9 ≤ (List.replicate 10 (0 : Byte)).length ∧ (List.replicate 10 (0 : Byte)).length ≤ s.cfg.memSize) := by decide

theorem witness_BootMeetsTheInvariant :
    Memory.wf [(8, 7), (20, 7)] ∧ State.reset.cfg.wf = true ∧
      ∃ t, bootImage (Vector.replicate 15 1) [(8, 7), (20, 7)] (List.replicate 9 0xFF) State.reset = some t :=
  ⟨by decide, by decide, _, rfl⟩

/-- The smallest image, ten bytes (30 R104), and one with an entry directive. -/
theorem witness_AssembledImagesAreWellFormed :
    assemble '%' [] = .ok [0, 0, 0, 0, 0, 0, 0, 0, 0, 0xFF] ∧
      assemble '%' ["entry".toList] = .ok [0x41, 0, 0, 0, 0, 0, 0, 0, 9, 0xFF] := by decide

end Sys2Proof.Tests
end

section
/-! SUPPORT. Frames: what an effect makes of each part of the state, and the step down to the effect. -/

namespace Sys2Proof.Machine

/-! ### What each part of the state is after an effect -/

/-- A register write that completes touches the registers and the pc alone (10 R26). -/
theorem writeReg_frame {u t : State} {d : Byte} {v : Word} (h : writeReg u d v = .ok t) :
    ∃ regs pc, t = { u with regs := regs, pc := pc } := by
  rcases writeReg_eq_ok h with ⟨_, rfl⟩ | ⟨_, rfl⟩
  · exact ⟨_, u.pc, rfl⟩
  · exact ⟨u.regs, _, rfl⟩

section effects

variable {i : Instr} {s t : State}

/-- No effect writes the parameters (10 R20). -/
theorem Effect.cfg_eq (h : Effect i s (afterFetch i.opcode s) t) : t.cfg = s.cfg := by
  cases h
  case write ht | pop ht | receive ht =>
    obtain ⟨regs, pc, rfl⟩ := writeReg_frame ht
    rfl
  all_goals rfl

/-- No effect writes the fault record, and only HLT's writes the run state (10 R35, R36). -/
theorem Effect.run_fault (h : Effect i s (afterFetch i.opcode s) t) :
    t.fault = s.fault ∧ (t.run = s.run ∨ i = .hlt ∧ t.run = .halted) := by
  cases h
  case write ht | pop ht | receive ht =>
    obtain ⟨regs, pc, rfl⟩ := writeReg_frame ht
    exact ⟨rfl, .inl rfl⟩
  case halt hi => exact ⟨rfl, .inr ⟨hi, rfl⟩⟩
  all_goals exact ⟨rfl, .inl rfl⟩

/-- The memory is as it was, or one allocated byte of it is written (20 R53). -/
theorem Effect.mem_cases (h : Effect i s (afterFetch i.opcode s) t) :
    t.mem = s.mem ∨ ∃ (a : Nat) (b : Byte), a < s.cfg.memSize ∧ t.mem = s.mem.write a b := by
  cases h
  case write ht | pop ht | receive ht =>
    obtain ⟨regs, pc, rfl⟩ := writeReg_frame ht
    exact .inl rfl
  case storeAbsolute ha | storeIndirect ha => exact .inr ⟨_, _, ha, rfl⟩
  all_goals exact .inl rfl

/-- The stack is as it was, or PUSH or CALL put one entry on a stack with room, or POP or RET took the top entry
(10 R32, R33). -/
theorem Effect.stack_cases (h : Effect i s (afterFetch i.opcode s) t) :
    t.stack = s.stack ∨
      (i.opcode ∈ [Opcode.push, .call] ∧ stackFull s = false ∧ ∃ v, t.stack = s.stack ++ [v]) ∨
      (i.opcode ∈ [Opcode.pop, .ret] ∧ ∃ v, s.stack = t.stack ++ [v]) := by
  cases h
  case write ht | receive ht =>
    obtain ⟨regs, pc, rfl⟩ := writeReg_frame ht
    exact .inl rfl
  case pop hi hst ht =>
    obtain ⟨regs, pc, rfl⟩ := writeReg_frame ht
    exact .inr (.inr ⟨by simp [hi, Instr.opcode], _, hst⟩)
  case ret hi hst => exact .inr (.inr ⟨by simp [hi, Instr.opcode], _, hst⟩)
  case push hi hf _ => exact .inr (.inl ⟨by simp [hi, Instr.opcode], hf, _, rfl⟩)
  case call hi hf => exact .inr (.inl ⟨by simp [hi, Instr.opcode], hf, _, rfl⟩)
  all_goals exact .inl rfl

/-- The channels are as they were, or TX sent one byte, or RX took one (10 R37). -/
theorem Effect.channel_cases (h : Effect i s (afterFetch i.opcode s) t) :
    (t.out = s.out ∧ t.inp = s.inp) ∨ (i.opcode = .tx ∧ t.inp = s.inp ∧ ∃ b, t.out = s.out ++ [b]) ∨
      (i.opcode = .rx ∧ t.out = s.out ∧ ∃ b, s.inp = b :: t.inp) := by
  cases h
  case write ht | pop ht =>
    obtain ⟨regs, pc, rfl⟩ := writeReg_frame ht
    exact .inl ⟨rfl, rfl⟩
  case receive hi hin ht =>
    obtain ⟨regs, pc, rfl⟩ := writeReg_frame ht
    exact .inr (.inr ⟨by simp [hi, Instr.opcode], rfl, _, hin⟩)
  case transmit hi _ => exact .inr (.inl ⟨by simp [hi, Instr.opcode], rfl, _, rfl⟩)
  all_goals exact .inl ⟨rfl, rfl⟩

theorem Effect.stack_eq (h : Effect i s (afterFetch i.opcode s) t)
    (hi : i.opcode ∉ [Opcode.push, .pop, .call, .ret]) : t.stack = s.stack := by
  rcases h.stack_cases with hst | ⟨hop, -⟩ | ⟨hop, -⟩
  · exact hst
  · exact absurd ((by decide : [Opcode.push, .call] ⊆ [.push, .pop, .call, .ret]) hop) hi
  · exact absurd ((by decide : [Opcode.pop, .ret] ⊆ [.push, .pop, .call, .ret]) hop) hi

theorem Effect.out_eq (h : Effect i s (afterFetch i.opcode s) t) (hi : i.opcode ≠ .tx) : t.out = s.out := by
  rcases h.channel_cases with ⟨hout, -⟩ | ⟨hop, -⟩ | ⟨-, hout, -⟩
  · exact hout
  · exact absurd hop hi
  · exact hout

theorem Effect.inp_eq (h : Effect i s (afterFetch i.opcode s) t) (hi : i.opcode ≠ .rx) : t.inp = s.inp := by
  rcases h.channel_cases with ⟨-, hinp⟩ | ⟨-, hinp, -⟩ | ⟨hop, -⟩
  · exact hinp
  · exact hinp
  · exact absurd hop hi

end effects

/-- Everything a step with a next state can be, down to the effect: an instruction completed, an instruction raised, or
the front part faulted. -/
theorem step_cases_effect {s t : State} (h : step s = .next t) :
    s.run = .running ∧
      ((∃ i, fetchInstr s = .ok i ∧ Effect i s (afterFetch i.opcode s) t) ∨
        (∃ i e, Raised i (afterFetch i.opcode s) e ∧ t = raise s (some i.opcode.code) e) ∨
        ∃ f, fetchInstr s = .error f ∧ t = raise s f.opcode f.trap) := by
  obtain ⟨hrun, ⟨i, hf, hx⟩ | hf⟩ := step_cases h
  · rcases exec_effect hx with he | ⟨e, hr, ht⟩
    · exact ⟨hrun, .inl ⟨i, hf, he⟩⟩
    · exact ⟨hrun, .inr (.inl ⟨i, e, hr, ht⟩)⟩
  · exact ⟨hrun, .inr (.inr hf)⟩

end Sys2Proof.Machine
end

section
/-! PROOFS. The invariant: every effect keeps it, and the record of every fault fits its kind. -/

namespace Sys2Proof.Machine

/-! ### The record of a fault -/

/-- The record of what an instruction raises fits its kind and that instruction (60 R200, R201). -/
theorem Raised.record_fits {i : Instr} {s : State} {e : Trap} (h : Raised i (afterFetch i.opcode s) e) (p : Pc) :
    recordFits s.cfg (faultRecord p (some i.opcode.code) e) = true := by
  cases h
  case register r hr h =>
    have hregs : i.opcode.format.numRegs ≠ 0 := fun h0 => by simp [Instr.registerOperands, h0] at hr
    have hlt : r.toNat < 256 := r.isLt
    have hinfo : (r.setWidth 64).toNat = r.toNat := BitVec.toNat_setWidth_of_le (by decide)
    simp [recordFits, infoFits, opcodeFits, faultAllowed, hregs, hinfo, h, hlt]
  case range hi h =>
    have hsize : s.cfg.memSize ≤ _ := h
    have hop : faultAllowed i.opcode .memoryRange = true := decide_eq_true hi
    simp [recordFits, infoFits, opcodeFits, hsize, hop]
  case underflow hi _ => simpa [recordFits, infoFits, opcodeFits, faultAllowed] using hi
  case overflow hi _ => simpa [recordFits, infoFits, opcodeFits, faultAllowed] using hi
  case target hi h =>
    simp only [callAllowed, afterFetch_cfg] at h
    cases hc : s.cfg.callTargets <;> simp_all [recordFits, infoFits, opcodeFits, faultAllowed, Instr.opcode]
  case noInput hi _ _ => simp [recordFits, infoFits, opcodeFits, faultAllowed, hi]

/-- The record of a fault of the front part fits its kind (10 R36, 60 R200, R201). -/
theorem fetchInstr_recordFits {s : State} {f : FetchFault} (h : fetchInstr s = .error f) :
    recordFits s.cfg (faultRecord s.pc f.opcode f.trap) = true := by
  rcases fetchInstr_error h with ⟨hpc, rfl⟩ | ⟨-, hop, rfl⟩ | ⟨o, a, -, -, hlen, ha, rfl⟩
  · have hlt : s.pc.toNat < 2 ^ 32 := s.pc.isLt
    simp [recordFits, infoFits, opcodeFits]
    omega
  · simp [recordFits, infoFits, opcodeFits, hop]
  · simp [recordFits, infoFits, opcodeFits, ha, hlen]

/-! ### The parts of the invariant -/

theorem stackFits_iff {s : State} : stackFits s = true ↔ ∀ n, s.cfg.stackDepth = some n → s.stack.length ≤ n := by
  unfold stackFits
  cases s.cfg.stackDepth <;> simp

theorem stackFull_iff {s : State} : stackFull s = true ↔ ∃ n, s.cfg.stackDepth = some n ∧ n ≤ s.stack.length := by
  unfold stackFull
  cases s.cfg.stackDepth <;> simp

/-- Away from Faulted the record is absent (10 R36). -/
theorem faultAgrees_of_not_faulted {s : State} (h : s.run ≠ .faulted) : faultAgrees s = s.fault.isNone := by
  unfold faultAgrees
  cases hr : s.run <;> simp_all

theorem Effect.keeps_mem {i : Instr} {s t : State} (h : Effect i s (afterFetch i.opcode s) t) (hwf : s.mem.wf)
    (hin : s.mem.within s.cfg.memSize) : t.mem.wf ∧ t.mem.within s.cfg.memSize := by
  rcases h.mem_cases with hm | ⟨a, b, ha, hm⟩ <;> rw [hm]
  · exact ⟨hwf, hin⟩
  · exact ⟨Memory.write_wf _ _ _ hwf, Memory.write_within b hin ha⟩

theorem Effect.keeps_stackFits {i : Instr} {s t : State} (h : Effect i s (afterFetch i.opcode s) t)
    (hs : stackFits s = true) : stackFits t = true := by
  rw [stackFits_iff] at hs ⊢
  rw [h.cfg_eq]
  intro n hn
  have hle := hs n hn
  rcases h.stack_cases with hst | ⟨-, hfull, v, hst⟩ | ⟨-, v, hst⟩
  · rwa [hst]
  · have hroom : ¬ n ≤ s.stack.length := fun hge => by simp [stackFull_iff.2 ⟨n, hn, hge⟩] at hfull
    rw [hst, List.length_append, List.length_singleton]
    omega
  · rw [hst, List.length_append] at hle
    omega

/-- An instruction that completes on a Running machine keeps the invariant. -/
theorem Effect.keeps_inv {i : Instr} {s t : State} (h : Effect i s (afterFetch i.opcode s) t)
    (hrun : s.run = .running) (hs : s.Inv) : t.Inv := by
  obtain ⟨hcfg, hwf, hin, hstack, hfault⟩ := hs
  obtain ⟨htwf, htin⟩ := h.keeps_mem hwf hin
  obtain ⟨hrec, ht⟩ := h.run_fault
  have htrun : t.run ≠ .faulted := by rcases ht with ht | ⟨-, ht⟩ <;> simp [ht, hrun]
  rw [faultAgrees_of_not_faulted (by simp [hrun])] at hfault
  refine ⟨h.cfg_eq ▸ hcfg, htwf, h.cfg_eq ▸ htin, h.keeps_stackFits hstack, ?_⟩
  rw [faultAgrees_of_not_faulted htrun, hrec, hfault]

/-- Taking a fault whose record fits keeps the invariant: nothing else it speaks of changes (60 R203). -/
theorem raise_keeps_inv {s : State} {op : Option Byte} {e : Trap} (hs : s.Inv)
    (hr : recordFits s.cfg (faultRecord s.pc op e) = true) : (raise s op e).Inv := by
  obtain ⟨hcfg, hwf, hin, hstack, -⟩ := hs
  exact ⟨hcfg, hwf, hin, hstack, hr⟩

/-- Settles O53: a step is an effect or a fault, and each keeps the invariant. -/
theorem stepKeepsTheInvariant : Obligations.StepKeepsTheInvariant := by
  intro s t hs h
  obtain ⟨hrun, ⟨i, -, he⟩ | ⟨i, e, hr, rfl⟩ | ⟨f, hf, rfl⟩⟩ := step_cases_effect h
  · exact he.keeps_inv hrun hs
  · exact raise_keeps_inv hs (hr.record_fits s.pc)
  · exact raise_keeps_inv hs (fetchInstr_recordFits hf)

/-- Settles O54: each part of the invariant is evaluated at the reset state. -/
theorem resetMeetsTheInvariant : Obligations.ResetMeetsTheInvariant := by
  refine ⟨by decide, reset_mem_wf, ?_, rfl, rfl⟩
  simp [Memory.within]

/-- Settles O55: reset's fields, and index 15 as the view of its pc. -/
theorem resetValuesOfTheSpec : Obligations.ResetValuesOfTheSpec :=
  ⟨reset_pc, reset_run, reset_stack, reset_fault, reset_out, readReg_pc rfl⟩

end Sys2Proof.Machine
end

section
/-! PROOFS. The registers by index, the stack, the input channel, and the statements over all instructions about what
changes and what is read. -/

namespace Sys2Proof.Machine

/-! ### The named operations -/

/-- Settles O11: the three ranges of the index, the last clause on the pc after the fetches. -/
theorem registerReadByIndex : Obligations.RegisterReadByIndex := by
  intro s i
  refine ⟨fun h => readReg_gpr (by omega), readReg_pc, readReg_bad, fun o h => ⟨_, readReg_pc h, ?_⟩⟩
  rw [BitVec.toNat_setWidth_of_le (by decide), afterFetch_pc, BitVec.toNat_add, BitVec.toNat_ofNat, Nat.add_mod_mod]

/-- Settles O12: the write is `setReg` below 15, `jumpTo` at 15 and the fault above. -/
theorem registerWriteByIndex : Obligations.RegisterWriteByIndex := by
  intro s i v
  refine ⟨fun h => ?_, fun h => ⟨v.setWidth 32, BitVec.toNat_setWidth .., writeReg_pc v h⟩, writeReg_bad v⟩
  have hi : i.toNat < 15 := by omega
  refine ⟨s.setReg ⟨i.toNat, hi⟩ v, writeReg_gpr v hi, ?_, rfl, fun j hj => ?_⟩
  · rw [readReg_gpr hi]
    simp
  · simp [Vector.getElem_set_ne, Ne.symm hj]

/-- Settles O13: a read at 15 is the pc, a write at 15 is `jumpTo`, and 32 bits survive the way there and back. -/
theorem registerFifteenIsThePcView : Obligations.RegisterFifteenIsThePcView := by
  intro s v p
  refine ⟨readReg_pc rfl, writeReg_pc v rfl, fun hv => ⟨jumpTo s v, writeReg_pc v rfl, ?_, ?_⟩, readReg_pc rfl⟩
  · rw [jumpTo_pc, BitVec.toNat_setWidth, Nat.mod_eq_of_lt hv]
  · rw [readReg_pc rfl, jumpTo_pc]
    congr 1
    apply BitVec.eq_of_toNat_eq
    simp only [BitVec.toNat_setWidth]
    omega

/-- Settles O16: within its depth, a stack is full exactly when it holds `STACK_DEPTH` entries. -/
theorem pushRaisesOnlyWhenFull : Obligations.PushRaisesOnlyWhenFull := by
  intro s v hfits
  have hfull : stackFull s = true ↔ s.cfg.stackDepth = some s.stack.length := by
    rw [stackFull_iff]
    constructor
    · rintro ⟨n, hn, hle⟩
      rw [hn, Nat.le_antisymm hle (stackFits_iff.1 hfits n hn)]
    · exact fun h => ⟨_, h, le_rfl⟩
  rcases pushWord_cases s v with ⟨hf, hp⟩ | ⟨hf, hp⟩
  · exact ⟨fun h => by simp [hfull.2 h] at hf, fun _ => hp⟩
  · exact ⟨fun _ => hp, fun h => absurd (hfull.1 hf) h⟩

/-- Settles O17: a push that completes leaves the pushed value on top of the old stack. -/
theorem popTakesTheTopEntry : Obligations.PopTakesTheTopEntry := by
  refine ⟨fun s => popWord_nil, fun s st v => popWord_snoc, fun s t v h => ?_⟩
  obtain ⟨-, rfl⟩ := pushWord_eq_ok h
  exact popWord_snoc rfl

/-- Settles O18: the three cases of the channel, the wait carried through `exec`. -/
theorem receiveByteByPolicy : Obligations.ReceiveByteByPolicy := by
  refine fun s => ⟨fun b rest => rxByte_cons, rxByte_fault, fun hin hp => ⟨rxByte_block hin hp, fun d => ?_⟩⟩
  apply exec_of_body_ok
  simp [execBody, rxByte_block (s := afterFetch _ s) hin hp]

/-! ### Over all instructions: what changes -/

/-- Settles O43: an effect by its frame lemmas, a fault by its record. -/
theorem otherStateChangesOnlyByItsWriters : Obligations.OtherStateChangesOnlyByItsWriters := by
  intro i s t h
  rcases exec_effect h with he | ⟨e, -, rfl⟩
  · refine ⟨he.stack_eq, he.out_eq, he.inp_eq, he.cfg_eq, ?_⟩
    obtain ⟨hf, hr | ⟨hhlt, hr⟩⟩ := he.run_fault
    · exact .inl ⟨hr, hf⟩
    · exact .inr (.inl ⟨hhlt, hr, hf⟩)
  · exact ⟨fun _ => rfl, fun _ => rfl, fun _ => rfl, rfl, .inr (.inr ⟨rfl, rfl⟩)⟩

/-- Settles O49: of the effects only HLT's ends the run, and the fetch found its opcode byte 0xFF. -/
theorem runEndsOnlyByHaltOrFault : Obligations.RunEndsOnlyByHaltOrFault := by
  refine ⟨fun s hs => ?_, fun s t hrun h => ?_⟩
  · unfold step
    cases hr : s.run <;> simp_all
  · obtain ⟨-, ⟨i, hf, he⟩ | ⟨i, e, -, rfl⟩ | ⟨f, -, rfl⟩⟩ := step_cases_effect h
    · obtain ⟨-, hr | ⟨rfl, hr⟩⟩ := he.run_fault
      · exact .inl (hr.trans hrun)
      · exact .inr (.inr ⟨hr, (fetchInstr_ok hf).2⟩)
    · exact .inr (.inl rfl)
    · exact .inr (.inl rfl)

/-- Settles O51: the channels after an effect; a fault leaves both as they were. -/
theorem oneChannelByteAtMost : Obligations.OneChannelByteAtMost := by
  intro s t h
  obtain ⟨-, ⟨i, -, he⟩ | ⟨i, e, -, rfl⟩ | ⟨f, -, rfl⟩⟩ := step_cases_effect h
  · rcases he.channel_cases with hsame | ⟨-, hsent⟩ | ⟨-, htaken⟩
    · exact .inl hsame
    · exact .inr (.inl hsent)
    · exact .inr (.inr htaken)
  · exact .inl ⟨rfl, rfl⟩
  · exact .inl ⟨rfl, rfl⟩

/-! ### Over all instructions: what is not read -/

theorem exec_of_body_error {i : Instr} {s : State} {e : Trap}
    (h : execBody i s (afterFetch i.opcode s) = .error e) : exec i s = .next (raise s (some i.opcode.code) e) := by
  rw [exec_eq, runInstr_error h]

theorem eq_tx_of_opcode {i : Instr} (h : i.opcode = .tx) : ∃ r, i = .tx r := by
  cases i <;> simp_all [Instr.opcode]

/-- Replacing the result of a sequence is replacing the result of its second part. -/
theorem except_map_bind {ε α β γ : Type} (g : β → γ) (x : Except ε α) (k : α → Except ε β) :
    (x >>= k).map g = x >>= fun a => (k a).map g := by
  cases x <;> rfl

/-- A sequence after a replaced result works on the replacement. -/
theorem except_bind_map {ε α β γ : Type} (g : α → β) (x : Except ε α) (k : β → Except ε γ) :
    (x.map g >>= k) = x >>= fun a => k (g a) := by
  cases x <;> rfl

theorem except_map_ok {ε α β : Type} (g : α → β) (a : α) : (.ok a : Except ε α).map g = .ok (g a) := rfl

/-- The state with another run state, fault record and output: the fields no instruction reads (10 R34). -/
def withUnread (r : RunState) (f : Option FaultRecord) (o : List Byte) (s : State) : State :=
  { s with run := r, fault := f, out := o }

section unread

variable (r : RunState) (f : Option FaultRecord) (o : List Byte) (s : State)

@[simp] theorem afterFetch_withUnread (op : Opcode) :
    afterFetch op (withUnread r f o s) = withUnread r f o (afterFetch op s) := rfl

@[simp] theorem jumpTo_withUnread (target : Word) :
    jumpTo (withUnread r f o s) target = withUnread r f o (jumpTo s target) := rfl

@[simp] theorem readReg_withUnread (i : Byte) : readReg (withUnread r f o s) i = readReg s i := rfl

@[simp] theorem memRead_withUnread (addr : Word) : memRead (withUnread r f o s) addr = memRead s addr := rfl

@[simp] theorem callAllowed_withUnread (addr : Word) : callAllowed (withUnread r f o s) addr = callAllowed s addr := rfl

@[simp] theorem writeReg_withUnread (i : Byte) (v : Word) :
    writeReg (withUnread r f o s) i v = (writeReg s i v).map (withUnread r f o) := by
  rcases Nat.lt_trichotomy i.toNat 15 with hi | hi | hi
  · rw [writeReg_gpr v hi, writeReg_gpr v hi]
    rfl
  · rw [writeReg_pc v hi, writeReg_pc v hi]
    rfl
  · rw [writeReg_bad v hi, writeReg_bad v hi]
    rfl

@[simp] theorem memWrite_withUnread (addr : Word) (b : Byte) :
    memWrite (withUnread r f o s) addr b = (memWrite s addr b).map (withUnread r f o) := by
  rcases memWrite_cases s addr b with ⟨h, hw⟩ | ⟨h, hw⟩ <;> rw [hw]
  · exact memWrite_ok b h
  · exact memWrite_bad b h

@[simp] theorem pushWord_withUnread (v : Word) :
    pushWord (withUnread r f o s) v = (pushWord s v).map (withUnread r f o) := by
  have hfull : stackFull (withUnread r f o s) = stackFull s := rfl
  cases h : stackFull s <;> simp only [pushWord, hfull, h] <;> rfl

/-- A pop that answers the same entry, the unread fields apart. -/
@[simp] theorem popWord_withUnread :
    popWord (withUnread r f o s) = (popWord s).map (Prod.map id (withUnread r f o)) := by
  rcases popWord_cases s with ⟨st, v, hst, hp⟩ | ⟨hst, hp⟩ <;> rw [hp]
  · exact popWord_snoc hst
  · exact popWord_nil hst

@[simp] theorem rxByte_withUnread :
    rxByte (withUnread r f o s) = (rxByte s).map (Option.map (Prod.map id (withUnread r f o))) := by
  rcases rxByte_cases s with ⟨b, rest, hin, hr⟩ | ⟨hin, hp, hr⟩ | ⟨hin, hp, hr⟩ <;> rw [hr]
  · exact rxByte_cons hin
  · exact rxByte_block hin hp
  · exact rxByte_fault hin hp

@[simp] theorem jumpIf_withUnread (rel : Relation) (a b : Byte) (addr : Word) :
    jumpIf rel a b addr (withUnread r f o s) = (jumpIf rel a b addr s).map (withUnread r f o) := by
  simp only [jumpIf, except_map_bind, except_map_ok, readReg_withUnread, jumpTo_withUnread,
    apply_ite (withUnread r f o)]

/-- Other than TX and HLT, the pseudocode does the same whatever the unread fields hold, and leaves them. -/
theorem execBody_withUnread {i : Instr} (u : State) (htx : i.opcode ≠ .tx) (hhlt : i ≠ .hlt) :
    execBody i (withUnread r f o s) (withUnread r f o u) = (execBody i s u).map (withUnread r f o) := by
  cases i
  case tx => exact absurd rfl htx
  case hlt => exact absurd rfl hhlt
  case nop | jmp => rfl
  case set => exact writeReg_withUnread ..
  case call addr =>
    have hpc : (withUnread r f o u).pc = u.pc := rfl
    cases hc : callAllowed u addr
    · simp only [execBody, callAllowed_withUnread, hc]
      rfl
    · simp only [execBody, callAllowed_withUnread, hc, if_true, pushWord_withUnread, hpc, except_map_bind,
        except_bind_map, except_map_ok, jumpTo_withUnread]
  case rx d =>
    simp only [execBody, rxByte_withUnread, except_map_bind, except_bind_map]
    congr 1
    funext q
    cases q with
    | none => rfl
    | some q => exact writeReg_withUnread ..
  all_goals
    simp only [execBody, except_map_bind, except_bind_map, except_map_ok, readReg_withUnread, memRead_withUnread,
      writeReg_withUnread, memWrite_withUnread, pushWord_withUnread, popWord_withUnread, jumpIf_withUnread,
      jumpTo_withUnread, Prod.map, id_eq]

/-- Every instruction raises the same whatever the unread fields hold. -/
theorem execBody_error_withUnread {i : Instr} {s u : State} {e : Trap} (h : execBody i s u = .error e) :
    execBody i (withUnread r f o s) (withUnread r f o u) = .error e := by
  by_cases htx : i.opcode = .tx
  · obtain ⟨q, rfl⟩ := eq_tx_of_opcode htx
    simpa [execBody, except_bind_eq_error] using h
  · have hhlt : i ≠ .hlt := by
      rintro rfl
      simp [execBody] at h
    rw [execBody_withUnread r f o s u htx hhlt, h]
    rfl

end unread

/-- Settles O45: the pseudocode gives the same result up to the unread fields, TX and HLT looked at alone. -/
theorem noInstructionReadsRunRecordOrOutput : Obligations.NoInstructionReadsRunRecordOrOutput := by
  intro i s t r f o hrun h
  rcases exec_cases h with hok | ⟨e, herr, rfl⟩
  · by_cases htx : i.opcode = .tx
    · obtain ⟨q, rfl⟩ := eq_tx_of_opcode htx
      obtain ⟨v, hv, ht⟩ := (except_bind_eq_ok ..).1 hok
      obtain rfl := Except.ok.inj ht
      have hok' : execBody (.tx q) (withUnread r f o s) (afterFetch .tx (withUnread r f o s)) =
          .ok (txByte (afterFetch .tx (withUnread r f o s)) (v.setWidth 8)) :=
        (except_bind_eq_ok ..).2 ⟨v, hv, rfl⟩
      exact ⟨_, exec_of_body_ok hok', rfl, rfl, rfl, rfl, rfl, ⟨_, rfl, rfl⟩, .inl ⟨rfl, rfl⟩,
        fun _ => ⟨rfl, rfl, rfl⟩, fun hf => absurd hf hrun⟩
    · by_cases hhlt : i = .hlt
      · subst hhlt
        obtain rfl := Except.ok.inj hok
        exact ⟨_, exec_of_body_ok rfl, rfl, rfl, rfl, rfl, rfl, ⟨[], by simp⟩, .inr (.inl ⟨rfl, rfl⟩),
          fun _ => ⟨rfl, rfl, rfl⟩, fun hf => by simp at hf⟩
      · have he := execBody_effect hok
        have hok' := execBody_withUnread r f o s (afterFetch i.opcode s) htx hhlt
        rw [hok] at hok'
        obtain ⟨hfault, hr | ⟨hi, -⟩⟩ := he.run_fault
        · exact ⟨_, exec_of_body_ok hok', rfl, rfl, rfl, rfl, rfl,
            ⟨[], by simpa using he.out_eq htx, (List.append_nil o).symm⟩, .inl ⟨hr, rfl⟩,
            fun _ => ⟨rfl, hfault, rfl⟩, fun hf => absurd (hr ▸ hf) hrun⟩
        · exact absurd hi hhlt
  · have herr' := execBody_error_withUnread r f o herr
    exact ⟨_, exec_of_body_error herr', rfl, rfl, rfl, rfl, rfl,
      ⟨[], (List.append_nil s.out).symm, (List.append_nil o).symm⟩, .inr (.inr ⟨rfl, rfl⟩),
      fun hf => absurd rfl hf, fun _ => rfl⟩

end Sys2Proof.Machine
end

section
/-! PROOFS. Memory: the fetches of one and of eight bytes, the read and the write of a byte, and what an instruction
stores. -/

namespace Sys2Proof.Machine

/-! ### The memory interface and the fetches -/

/-- Settles O14: the two outcomes of the range check. -/
theorem memoryReadChecksRange : Obligations.MemoryReadChecksRange :=
  fun _ _ => ⟨memRead_ok, memRead_bad⟩

/-- Settles O15: inside the range the new memory is `Memory.write`, whose laws give the byte and the frame. -/
theorem memoryWriteChangesOneByte : Obligations.MemoryWriteChangesOneByte := fun s addr v hwf =>
  ⟨fun h => ⟨s.mem.write addr.toNat v, memWrite_ok v h, Memory.write_wf _ _ _ hwf, Memory.read_write_same _ _ _ hwf,
    fun a ha => Memory.read_write_other _ _ a v ha⟩, memWrite_bad v⟩

/-- Settles O9: a fetch is a read at the pc and `advance`, whose sum of 32-bit values wraps. -/
theorem fetchEightReadsAndAdvances : Obligations.FetchEightReadsAndAdvances :=
  fun s => ⟨fun h => ⟨s.pc + 1, BitVec.toNat_add .., fetch8_ok h⟩, fetch8_bad⟩

/-- A front part whose opcode fetch is out of range faults with no opcode (10 R36, 30 R88). -/
theorem fetchInstr_of_pc_out_of_range {s : State} (h : s.cfg.memSize ≤ s.pc.toNat) :
    fetchInstr s = .error ⟨none, ⟨.memoryRange, s.pc.setWidth 64⟩⟩ := by
  simp only [fetchInstr, fetch8_bad h]

/-- A Running machine whose front part faults takes that fault. -/
theorem step_of_fetchInstr_error {s : State} {f : FetchFault} (hrun : s.run = .running)
    (h : fetchInstr s = .error f) : step s = .next (raise s f.opcode f.trap) := by
  simp only [step, hrun, h]

/-- Settles O7: the fault of the opcode fetch is the fault of the step. -/
theorem opcodeFetchOutOfRangeFaults : Obligations.OpcodeFetchOutOfRangeFaults := fun _ hrun h =>
  ⟨_, step_of_fetchInstr_error hrun (fetchInstr_of_pc_out_of_range h), _, rfl⟩

/-- Fetching bytes of which the first out of range is the `k`-th faults with that byte's address (20 R54, R55). -/
theorem fetchBytes_first_out_of_range : ∀ (k n : Nat) (s : State), k < n → allocatedAtPc s k →
    s.cfg.memSize ≤ (s.pc + BitVec.ofNat 32 k).toNat →
    fetchBytes n s = .error ⟨.memoryRange, (s.pc + BitVec.ofNat 32 k).setWidth 64⟩
  | _, 0, _, hk, _, _ => absurd hk (Nat.not_lt_zero _)
  | 0, n + 1, s, _, _, hout => by
    rw [BitVec.add_zero] at hout ⊢
    simp only [fetchBytes, fetch8_bad hout]
  | k + 1, n + 1, s, hk, halloc, hout => by
    rw [← advance_one_pc] at hout ⊢
    simp only [fetchBytes, fetch8_ok (allocatedAtPc_head halloc),
      fetchBytes_first_out_of_range k n _ (Nat.lt_of_succ_lt_succ hk) (allocatedAtPc_tail halloc) hout]

/-- Byte `k` of a literal, the first the most significant, is its digit of weight `256 ^ (7 - k)` (20 R56). -/
theorem bytesOfWord_getElem_toNat (w : Word) {k : Nat} (hk : k < 8) :
    ((bytesOfWord w)[k]'hk).toNat = w.toNat / 256 ^ (7 - k) % 256 := by
  interval_cases k <;> simp [bytesOfWord, Nat.shiftRight_eq_div_pow]

theorem bytesAtPc_length (s : State) (n : Nat) : (bytesAtPc s n).length = n := by simp [bytesAtPc]

theorem bytesAtPc_getElem (s : State) {n k : Nat} (hk : k < (bytesAtPc s n).length) :
    (bytesAtPc s n)[k] = s.mem.read (s.pc + BitVec.ofNat 32 k).toNat := by simp [bytesAtPc]

/-- Settles O10: the value's bytes are the eight bytes at the pc, and the first byte out of range faults the whole. -/
theorem fetchSixtyFourIsBigEndian : Obligations.FetchSixtyFourIsBigEndian := by
  intro s
  refine ⟨fun halloc => ⟨wordOfBytes (bytesAtPc s 8), ?_, fun k hk => ?_⟩, fun k hk halloc hout => ?_⟩
  · simp only [fetch64, fetchBytes_allocated 8 s halloc]
    rfl
  · rw [← bytesOfWord_getElem_toNat _ hk]
    simp only [bytesOfWord_wordOfBytes _ (bytesAtPc_length s 8), bytesAtPc_getElem]
  · simp only [fetch64, fetchBytes_first_out_of_range k 8 s hk halloc hout]

/-! ### What an instruction stores -/

/-- A register read that completes after the fetches gives the operand's value. -/
theorem readReg_afterFetch_eq_ok {o : Opcode} {s : State} {r : Byte} {v : Word}
    (h : readReg (afterFetch o s) r = .ok v) : v = regOperand o s r := by
  cases hr : namesRegister r
  · simp [readReg_unnamed hr] at h
  · exact (Except.ok.inj ((readReg_named hr).symm.trans h)).symm

/-- Only STO and STR have an address to store to (41 R140). -/
theorem storeAddress_eq_none {s : State} {i : Instr} (h : i.opcode ∉ [Opcode.sto, .str]) : storeAddress s i = none := by
  cases i
  case sto | str => simp [Instr.opcode] at h
  all_goals rfl

/-- A store has no destination register. -/
theorem storeAddress_eq_none_of_destination {s : State} {i : Instr} {d : Byte} (h : destination i = some d) :
    storeAddress s i = none := by
  cases i
  case sto | str => simp [destination] at h
  all_goals rfl

/-- An instruction with no store address leaves the memory; one with a store address writes there the low byte of its
first register operand (41 R140, 20 R53). -/
theorem Effect.store_cases {i : Instr} {s t : State} (h : Effect i s (afterFetch i.opcode s) t) :
    (storeAddress s i = none ∧ t.mem = s.mem) ∨
      ∃ (r : Byte) (v : Word) (a : Nat), storeAddress s i = some a ∧ i.registerOperands.head? = some r ∧
        readReg (afterFetch i.opcode s) r = .ok v ∧ a < s.cfg.memSize ∧ t.mem = s.mem.write a (v.setWidth 8) := by
  cases h
  case storeAbsolute r addr v hi hv ha => exact .inr ⟨r, v, _, by rw [hi]; rfl, by rw [hi]; rfl, hv, ha, rfl⟩
  case storeIndirect r p addr v hi hv hp ha =>
    subst hi
    obtain rfl := readReg_afterFetch_eq_ok hp
    exact .inr ⟨r, v, _, rfl, rfl, hv, ha, rfl⟩
  case write hd _ _ ht =>
    obtain ⟨regs, pc, rfl⟩ := writeReg_frame ht
    exact .inl ⟨storeAddress_eq_none_of_destination hd, rfl⟩
  case pop hi _ ht | receive hi _ ht =>
    obtain ⟨regs, pc, rfl⟩ := writeReg_frame ht
    exact .inl ⟨storeAddress_eq_none (by simp [hi, Instr.opcode]), rfl⟩
  case jump hi =>
    have hni : i.opcode ∉ [Opcode.sto, .str] := fun hs => by
      rcases List.mem_pair.1 hs with ho | ho <;> simp [ho] at hi
    exact .inl ⟨storeAddress_eq_none hni, rfl⟩
  case wait hi _ _ => exact .inl ⟨storeAddress_eq_none (by simp [hi]), rfl⟩
  case nothing hi | halt hi | push hi _ _ | call hi _ | ret hi _ | transmit hi _ =>
    exact .inl ⟨storeAddress_eq_none (by simp [hi, Instr.opcode]), rfl⟩

/-- Settles O42: an effect leaves the memory or writes it at the store address; a fault leaves it (60 R203). -/
theorem onlyTheStoredByteChanges : Obligations.OnlyTheStoredByteChanges := by
  intro i s t h a ha
  rcases exec_effect h with he | ⟨e, -, rfl⟩
  · rcases he.store_cases with ⟨-, hmem⟩ | ⟨r, v, a', haddr, -, -, -, hmem⟩ <;> rw [hmem]
    exact Memory.read_write_other _ _ _ _ fun heq => ha (heq ▸ haddr)
  · rfl

/-- Settles O52: a store that completed wrote an allocated byte, and the next fetch reads it back. -/
theorem storeIsSeenByTheNextFetch : Obligations.StoreIsSeenByTheNextFetch := by
  intro i s t hwf hrun h htrun haddr
  rcases exec_effect h with he | ⟨e, -, rfl⟩
  · rcases he.store_cases with ⟨hnone, -⟩ | ⟨r, v, a, hsome, hhead, hread, halloc, hmem⟩
    · simp [hnone] at haddr
    · obtain rfl := Option.some.inj (hsome.symm.trans haddr)
      refine ⟨r, v, hhead, hread, ?_⟩
      have hbyte : t.mem.read t.pc.toNat = v.setWidth 8 := by rw [hmem, Memory.read_write_same _ _ _ hwf]
      rw [fetch8_ok (he.cfg_eq ▸ halloc), hbyte]
      rfl
  · simp at htrun

end Sys2Proof.Machine
end

section
/-! PROOFS. The assembler: every token keeps the entry slot at the start of the buffer, so every image has one. -/

namespace Sys2Proof.Machine

/-- The buffer starts with a whole entry slot: nine NOP bytes, or one JMP (20 R61, 30 R98). -/
def StartsWithEntrySlot (buf : List Byte) : Prop :=
  ∃ slot rest, buf = slot ++ rest ∧ (slot = List.replicate 9 0 ∨ ∃ target : Word, slot = encode (.jmp target))

theorem entrySlot_length {slot : List Byte}
    (h : slot = List.replicate 9 0 ∨ ∃ target : Word, slot = encode (.jmp target)) : slot.length = 9 := by
  rcases h with rfl | ⟨target, rfl⟩
  · exact List.length_replicate
  · exact encode_length _

theorem StartsWithEntrySlot.append {buf : List Byte} (h : StartsWithEntrySlot buf) (bs : List Byte) :
    StartsWithEntrySlot (buf ++ bs) := by
  obtain ⟨slot, rest, rfl, hslot⟩ := h
  exact ⟨slot, rest ++ bs, List.append_assoc .., hslot⟩

/-- The directive splices a whole JMP over the front of the buffer, whatever stood there (30 R98). -/
theorem spliceEntry_startsWithEntrySlot (buf : List Byte) : StartsWithEntrySlot (spliceEntry buf) :=
  ⟨_, _, rfl, .inr ⟨_, rfl⟩⟩

/-- Everything a token does to the buffer: it appends bytes, none perhaps, or splices the entry JMP (30 R96 to R103). -/
theorem asmToken_buf {sigil : Char} {st st' : AsmState} {tok : Token} (h : asmToken sigil st tok = .ok st') :
    (∃ bs, st'.buf = st.buf ++ bs) ∨ st'.buf = spliceEntry st.buf := by
  simp only [asmToken] at h
  split at h
  · -- the name of a function (R99)
    obtain rfl := Except.ok.inj h
    exact .inl ⟨[], (List.append_nil _).symm⟩
  · -- the target of a call (R100)
    split at h
    · obtain rfl := Except.ok.inj h
      exact .inl ⟨_, rfl⟩
    · cases h
  · split at h
    · -- a mnemonic (R97)
      obtain rfl := Except.ok.inj h
      exact .inl ⟨_, rfl⟩
    · split_ifs at h with hentry hname hcall
      · obtain rfl := Except.ok.inj h
        exact .inr rfl
      · obtain rfl := Except.ok.inj h
        exact .inl ⟨[], (List.append_nil _).symm⟩
      · obtain rfl := Except.ok.inj h
        exact .inl ⟨_, rfl⟩
      · -- an operand (R101 to R103)
        split at h
        · obtain rfl := Except.ok.inj h
          exact .inl ⟨_, rfl⟩
        · cases h

theorem asmTokens_startsWithEntrySlot {sigil : Char} : ∀ {tokens : List Token} {st st' : AsmState},
    StartsWithEntrySlot st.buf → asmTokens sigil st tokens = .ok st' → StartsWithEntrySlot st'.buf
  | [], _, _, hst, h => Except.ok.inj h ▸ hst
  | tok :: rest, st, st', hst, h => by
    simp only [asmTokens] at h
    split at h
    · rename_i st₁ htok
      refine asmTokens_startsWithEntrySlot ?_ h
      rcases asmToken_buf htok with ⟨bs, hbuf⟩ | hbuf <;> rw [hbuf]
      · exact hst.append bs
      · exact spliceEntry_startsWithEntrySlot st.buf
    · cases h

/-- An image is a buffer that starts with the entry slot, and the trailing HLT (30 R104). -/
theorem assemble_eq_ok {sigil : Char} {lines : List (List Char)} {image : List Byte}
    (h : assemble sigil lines = .ok image) : ∃ buf, StartsWithEntrySlot buf ∧ image = buf ++ [0xFF] := by
  simp only [assemble, assembleTokens] at h
  split at h
  · cases h
  · rename_i st hst
    split at h
    · cases h
    · have hstart : StartsWithEntrySlot asmStart.buf := ⟨_, [], (List.append_nil _).symm, .inl rfl⟩
      exact ⟨st.buf, asmTokens_startsWithEntrySlot hstart hst, (Except.ok.inj h).symm⟩

/-- Settles O58: the entry slot is nine bytes of the image and the HLT one more. -/
theorem assembledImagesAreWellFormed : Obligations.AssembledImagesAreWellFormed := by
  intro sigil lines image h
  obtain ⟨buf, ⟨slot, rest, rfl, hslot⟩, rfl⟩ := assemble_eq_ok h
  have hlen := entrySlot_length hslot
  refine ⟨?_, List.getLast?_concat, ?_⟩
  · simp only [List.length_append, hlen, List.length_singleton]
    omega
  · rwa [List.append_assoc, List.take_left' hlen]

end Sys2Proof.Machine
end

section
/-! PROOFS. The encoding: the decoder reads exactly the encodings, their lengths, the unknown opcodes, and the step from
bytes that decode. -/

namespace Sys2Proof

/-- The decoder accepts exactly a tag's opcode byte followed by that tag's operand bytes (30 R94). -/
theorem decode_eq_ok_iff {bs rest : List Byte} {i : Instr} :
    decode bs = .ok (i, rest) ↔
      ∃ (o : Opcode) (args : List Byte), bs = o.code :: (args ++ rest) ∧ args.length = o.format.operandBytes ∧
        o.instr args = i := by
  constructor
  · intro h
    cases bs with
    | nil => simp [decode] at h
    | cons op tail =>
      simp only [decode] at h
      split at h
      · cases h
      · rename_i o ho
        split_ifs at h with hshort
        obtain ⟨rfl, rfl⟩ := Prod.mk.inj (Except.ok.inj h)
        refine ⟨o, tail.take o.format.operandBytes, ?_, ?_, rfl⟩
        · rw [code_of_decodeOpcode ho, List.take_append_drop]
        · exact List.length_take_of_le (Nat.le_of_not_lt hshort)
  · rintro ⟨o, args, rfl, hlen, rfl⟩
    have hlong : ¬ (args ++ rest).length < o.format.operandBytes := by
      rw [List.length_append]
      omega
    simp only [decode, decodeOpcode_code, hlong, if_false, List.take_left' hlen, List.drop_left' hlen]

/-- A tag with whole operand bytes is encoded by them (30 R81). -/
theorem encode_instr {o : Opcode} {args : List Byte} (h : args.length = o.format.operandBytes) :
    encode (o.instr args) = o.code :: args := by
  simp only [encode, Opcode.instr, Opcode.build_opcode, Opcode.emit_build, Format.emit_cut _ _ h]

/-- Settles O1: the encoding is the tag's byte and its operand bytes, and they make the instruction again. -/
theorem decodeReadsBackEncode : Obligations.DecodeReadsBackEncode := fun i _ =>
  decode_eq_ok_iff.2 ⟨i.opcode, _, rfl, Format.emit_length .., i.build_cut_emit⟩

/-- Settles O2: what the decoder accepts is a tag's bytes; decoding the encoding shows that it is injective. -/
theorem decodedBytesAreTheEncoding : Obligations.DecodedBytesAreTheEncoding := by
  refine ⟨fun bs i rest h => ?_, fun i j h => ?_⟩
  · obtain ⟨o, args, rfl, hlen, rfl⟩ := decode_eq_ok_iff.1 h
    rw [encode_instr hlen, List.cons_append]
  · have hi := decodeReadsBackEncode i []
    rw [h, decodeReadsBackEncode j []] at hi
    exact (Prod.mk.inj (Except.ok.inj hi)).1.symm

/-! ### Lengths -/

theorem Instr.registerOperands_length (i : Instr) : i.registerOperands.length = i.opcode.format.numRegs := by
  have hthree : i.opcode.format.numRegs ≤ 3 := by cases i.opcode.format <;> decide
  exact List.length_take_of_le hthree

theorem Opcode.length_mem (o : Opcode) : o.length ∈ [1, 2, 3, 4, 9, 10, 11] := by
  cases o <;> decide

/-- Settles O3: the encoding is as long as its tag says, and the 25 tags are the table's rows. -/
theorem instructionLengthsAreTheTables : Obligations.InstructionLengthsAreTheTables := by
  refine ⟨fun i => ?_, fun i => ?_, rfl, fun i => ⟨encode_length i, i.opcode.mem_all⟩⟩
  · rw [encode_length, i.registerOperands_length, Nat.add_assoc]
    rfl
  · rw [encode_length]
    exact i.opcode.length_mem

/-! ### Unknown opcodes -/

/-- The 25 opcode bytes as numbers, in the table's order (30 R86). -/
def opcodeBytes : List Nat := Opcode.all.map fun o => o.code.toNat

theorem opcodeBytes_eq :
    opcodeBytes =
      [0x00, 0x01, 0x02, 0x03, 0x11, 0x12, 0x21, 0x22, 0x31, 0x32, 0x41, 0x42, 0x43, 0x44, 0x45, 0x46, 0x47, 0x48,
        0x51, 0x52, 0x61, 0x62, 0xA1, 0xA2, 0xFF] := rfl

/-- A byte is an unknown opcode when no tag has it as its opcode byte (30 R91). -/
theorem decodeOpcode_eq_none_iff {b : Byte} : decodeOpcode b = none ↔ b.toNat ∉ opcodeBytes := by
  simp [opcodeBytes, decodeOpcode, List.find?_eq_none, BitVec.toNat_inj]

/-- The 25 opcode bytes are distinct bytes, so the other 231 of the 256 values are unknown (30 R91). -/
theorem unknownOpcodes_length :
    ((List.range 256).filter fun n => (decodeOpcode (BitVec.ofNat 8 n)).isNone).length = 231 := by
  have hknown : ((List.range 256).filter fun n => !(decodeOpcode (BitVec.ofNat 8 n)).isNone).Perm opcodeBytes := by
    refine (List.perm_ext_iff_of_nodup (List.nodup_range.filter _) (by decide)).2 fun n => ?_
    have hbytes : ∀ m ∈ opcodeBytes, m < 256 := by decide
    rw [List.mem_filter, List.mem_range, Bool.not_eq_true', Option.isNone_eq_false_iff, Option.isSome_iff_ne_none, Ne,
      decodeOpcode_eq_none_iff, not_not, BitVec.toNat_ofNat]
    constructor
    · rintro ⟨hn, hm⟩
      rwa [Nat.mod_eq_of_lt hn] at hm
    · intro hm
      rw [Nat.mod_eq_of_lt (hbytes n hm)]
      exact ⟨hbytes n hm, hm⟩
  have hsplit := List.length_eq_length_filter_add (l := List.range 256)
    fun n => (decodeOpcode (BitVec.ofNat 8 n)).isNone
  rw [List.length_range, hknown.length_eq, opcodeBytes_eq] at hsplit
  exact Nat.add_right_cancel hsplit.symm

end Sys2Proof

namespace Sys2Proof.Machine

/-- A front part that finds an unknown opcode raises it, whatever bytes follow (30 R88, R91). -/
theorem fetchInstr_of_unknown {s : State} (hpc : s.pc.toNat < s.cfg.memSize)
    (hop : decodeOpcode (s.mem.read s.pc.toNat) = none) :
    fetchInstr s =
      .error ⟨some (s.mem.read s.pc.toNat), ⟨.unknownOpcode, (s.mem.read s.pc.toNat).setWidth 64⟩⟩ := by
  simp only [fetchInstr, fetch8_ok hpc, hop]

/-- Settles O5: the unknown bytes lie between the 25 opcode bytes; the front part faults before any operand fetch. -/
theorem unknownOpcodesFault : Obligations.UnknownOpcodesFault := by
  refine ⟨fun b => ?_, unknownOpcodes_length, fun s hrun hpc hop => ?_⟩
  · have hb := b.isLt
    rw [decodeOpcode_eq_none_iff, opcodeBytes_eq]
    simp only [List.mem_cons, List.not_mem_nil, or_false]
    omega
  · exact ⟨_, step_of_fetchInstr_error hrun (fetchInstr_of_unknown hpc hop), _, rfl⟩

/-! ### The step at an instruction's bytes -/

/-- A front part with an instruction's encoding at the pc, all of it allocated, fetches that instruction (30 R88). -/
theorem fetchInstr_of_bytesAtPc {s : State} {i : Instr} (halloc : allocatedAtPc s i.length)
    (hbytes : bytesAtPc s i.length = encode i) : fetchInstr s = .ok i := by
  have hlen : i.length = i.opcode.format.operandBytes + 1 := Nat.add_comm ..
  rw [hlen] at halloc
  rw [hlen, bytesAtPc_succ] at hbytes
  obtain ⟨hop, hargs⟩ := List.cons.inj hbytes
  simp only [fetchInstr, fetch8_ok (allocatedAtPc_head halloc), hop, decodeOpcode_code,
    fetchBytes_allocated _ _ (allocatedAtPc_tail halloc), hargs, i.build_cut_emit]

/-- A Running machine whose front part completes takes the fetched instruction's meaning. -/
theorem step_of_fetchInstr_ok {s : State} {i : Instr} (hrun : s.run = .running) (h : fetchInstr s = .ok i) :
    step s = exec i s := by
  simp only [step, hrun, h]

/-- Settles O6: bytes that decode to the instruction are its encoding, which the front part fetches. -/
theorem stepRunsDecodedInstruction : Obligations.StepRunsDecodedInstruction := by
  intro s i hrun halloc hdec
  have hbytes := decodedBytesAreTheEncoding.1 _ _ _ hdec
  rw [List.append_nil] at hbytes
  exact step_of_fetchInstr_ok hrun (fetchInstr_of_bytesAtPc halloc hbytes)

/-! ### The frame of the general registers -/

/-- A register write that completes leaves every general register but the one it names (10 R26). -/
theorem writeReg_regs_other {u t : State} {d : Byte} {v : Word} (h : writeReg u d v = .ok t) {j : Fin 15}
    (hj : d.toNat ≠ j.val) : t.regs[j.val] = u.regs[j.val] := by
  rcases writeReg_eq_ok h with ⟨hd, rfl⟩ | ⟨-, rfl⟩
  · exact Vector.getElem_set_ne hd j.isLt hj
  · rfl

/-- An effect changes no general register but the destination (30 R86). -/
theorem Effect.regs_other {i : Instr} {s t : State} (h : Effect i s (afterFetch i.opcode s) t) {j : Fin 15}
    (hj : ∀ d, destination i = some d → d.toNat ≠ j.val) : t.regs[j.val] = s.regs[j.val] := by
  cases h
  case write hd _ _ ht => exact writeReg_regs_other ht (hj _ hd)
  case pop hi _ ht | receive hi _ ht =>
    subst hi
    exact writeReg_regs_other ht (hj _ rfl)
  all_goals rfl

/-- Settles O41: an effect by its register frame; a fault keeps every register (60 R203). -/
theorem onlyTheDestinationRegisterChanges : Obligations.OnlyTheDestinationRegisterChanges := by
  intro i s t h j hj
  rcases exec_effect h with he | ⟨e, -, rfl⟩
  · exact he.regs_other hj
  · rfl

end Sys2Proof.Machine
end

section
/-! PROOFS. NOP, SET, ADD, SUB: the results of the two sums, an instruction with two sources and one destination, and a
step at a zero byte. -/

namespace Sys2Proof.Machine

/-! ### The arithmetic -/

theorem wrapAdd_toNat (a b : Word) : (wrapAdd a b).toNat = (a.toNat + b.toNat) % 2 ^ 64 := BitVec.toNat_ofNat ..

/-- The difference where it is not negative, and otherwise `2^64` more (40 R130). -/
theorem wrapSub_toNat (a b : Word) :
    (wrapSub a b).toNat =
      if b.toNat ≤ a.toNat then a.toNat - b.toNat else 2 ^ 64 + a.toNat - b.toNat := by
  have ha := a.isLt
  have hb := b.isLt
  rw [wrapSub, BitVec.toNat_ofNat]
  split <;> omega

/-! ### Two sources and one destination -/

/-- Two reads of named registers after the fetches, and the write of `f` of the two values to a named register as the one
effect. -/
theorem readReg_readReg_writeReg_named {o : Opcode} {s : State} {d a b : Byte} (f : Word → Word → Word)
    (hd : namesRegister d = true) (ha : namesRegister a = true) (hb : namesRegister b = true) :
    (readReg (afterFetch o s) a >>= fun va => readReg (afterFetch o s) b >>= fun vb =>
        writeReg (afterFetch o s) d (f va vb)) =
      .ok (withResult o s d (f (regOperand o s a) (regOperand o s b))) := by
  rw [readReg_named ha, except_bind_ok, readReg_named hb, except_bind_ok, writeReg_named hd]

/-- Settles O21: the value written is `wrapAdd` of the two operands. -/
theorem addWritesWrappedSum : Obligations.AddWritesWrappedSum := fun _ _ _ _ hd ha hb =>
  ⟨_, wrapAdd_toNat .., exec_of_body_ok (readReg_readReg_writeReg_named wrapAdd hd ha hb)⟩

/-- Settles O22: the value written is `wrapSub` of the two operands. -/
theorem subWritesWrappedDifference : Obligations.SubWritesWrappedDifference := fun _ _ _ _ hd ha hb =>
  ⟨_, wrapSub_toNat .., exec_of_body_ok (readReg_readReg_writeReg_named wrapSub hd ha hb)⟩

/-- Settles O20: the pseudocode is the one write of the literal. -/
theorem setWritesLiteral : Obligations.SetWritesLiteral := fun _ _ _ hd => exec_of_body_ok (writeReg_named hd)

/-! ### NOP -/

theorem exec_nop (s : State) : exec .nop s = .next { s with pc := s.pc + 1 } := exec_of_body_ok rfl

/-- A front part with a zero byte at an allocated pc fetches NOP, whatever bytes follow (40 R131). -/
theorem fetchInstr_of_zero_byte {s : State} (hpc : s.pc.toNat < s.cfg.memSize) (h0 : s.mem.read s.pc.toNat = 0) :
    fetchInstr s = .ok .nop := by
  have halloc : allocatedAtPc s Instr.nop.length := fun k hk => by
    obtain rfl : k = 0 := Nat.lt_one_iff.1 hk
    simpa using hpc
  have hbytes : bytesAtPc s Instr.nop.length = encode .nop := by
    refine (bytesAtPc_succ s 0).trans ?_
    rw [h0]
    rfl
  exact fetchInstr_of_bytesAtPc halloc hbytes

/-- Settles O19: NOP's meaning is the fetch's advance by one byte; a zero byte is fetched as NOP, and an opcode fetch out
of range faults as it does for every instruction. -/
theorem nopOnlyAdvances : Obligations.NopOnlyAdvances := by
  refine ⟨rfl, fun s => ⟨s.pc + 1, BitVec.toNat_add .., exec_nop s⟩, fun s hrun => ⟨fun hpc h0 => ?_, ?_⟩⟩
  · rw [step_of_fetchInstr_ok hrun (fetchInstr_of_zero_byte hpc h0), exec_nop]
  · exact opcodeFetchOutOfRangeFaults s hrun

end Sys2Proof.Machine
end

section
/-! PROOFS. LD, LDR, STO, STR: the end the two loads share, and what a store of a register's low byte leaves in
memory. -/

namespace Sys2Proof.Machine

/-! ### Loads -/

/-- The end of both loads after the fetches: the byte at an allocated address, zero-extended, is written to a named
register as the one effect (41 R140). -/
theorem memRead_writeReg_named {o : Opcode} {s : State} {d : Byte} {addr : Word} (hd : namesRegister d = true)
    (ha : addr.toNat < s.cfg.memSize) :
    (memRead (afterFetch o s) addr >>= fun b => writeReg (afterFetch o s) d (b.setWidth 64)) =
      .ok (withResult o s d ((s.mem.read addr.toNat).setWidth 64)) := by
  rw [memRead_afterFetch, memRead_ok ha, except_bind_ok, writeReg_named hd]

/-- Zero extension keeps a byte's value (41 R140). -/
theorem byte_zeroExtend_toNat (b : Byte) : (b.setWidth 64 : Word).toNat = b.toNat :=
  BitVec.toNat_setWidth_of_le (by decide)

/-- Settles O23: both loads end in the same read and write; LDR first reads its pointer, whose value is the operand's. -/
theorem loadsWriteZeroExtendedByte : Obligations.LoadsWriteZeroExtendedByte := by
  refine ⟨fun s d addr hd ha => ⟨_, byte_zeroExtend_toNat _, exec_of_body_ok (memRead_writeReg_named hd ha)⟩,
    fun s d p hd hp ha => ⟨_, byte_zeroExtend_toNat _, exec_of_body_ok ?_⟩⟩
  rw [execBody, Instr.opcode, readReg_named hp, except_bind_ok, memRead_writeReg_named hd ha]

/-! ### Stores -/

/-- A write of a word's low byte to a canonical memory: that byte reads back, every other one as before (20 R53,
41 R140). -/
theorem Memory.write_lowByte {m : Memory} (hwf : m.wf) (a : Nat) (v : Word) :
    ((m.write a (v.setWidth 8)).read a).toNat = v.toNat % 256 ∧
      ∀ a', a' ≠ a → (m.write a (v.setWidth 8)).read a' = m.read a' := by
  refine ⟨?_, fun a' => Memory.read_write_other m a a' _⟩
  rw [Memory.read_write_same m a _ hwf]
  exact BitVec.toNat_setWidth ..

/-- Settles O24: after its register reads either store is one `memWrite` of the first operand's low byte. -/
theorem storesWriteLowByte : Obligations.StoresWriteLowByte := by
  refine ⟨fun s r addr hwf hr ha => ⟨_, exec_of_body_ok ?_, Memory.write_lowByte hwf _ _⟩,
    fun s r p hwf hr hp ha => ⟨_, exec_of_body_ok ?_, Memory.write_lowByte hwf _ _⟩⟩
  · rw [execBody, Instr.opcode, readReg_named hr, except_bind_ok, memWrite_afterFetch_ok _ ha]
  · rw [execBody, Instr.opcode, readReg_named hr, except_bind_ok, readReg_named hp, except_bind_ok,
      memWrite_afterFetch_ok _ ha]

end Sys2Proof.Machine
end

section
/-! PROOFS. LSL and LSR: the value of a logical shift below 64 and from 64 on. -/

namespace Sys2Proof.Machine

/-- A logical shift is its below-64 meaning, and 0 for an amount of 64 or more (42 R150). -/
theorem logicalShift_toNat (f : Nat → Word) (n : Word) :
    (logicalShift f n).toNat = if n.toNat < 64 then (f n.toNat).toNat else 0 := by
  by_cases hn : n.toNat < 64
  · rw [logicalShift, if_neg (Nat.not_le.2 hn), if_pos hn]
  · rw [logicalShift, if_pos (Nat.not_lt.1 hn), if_neg hn]
    rfl

theorem shiftLeft_toNat (v n : Word) :
    (shiftLeft v n).toNat = if n.toNat < 64 then v.toNat * 2 ^ n.toNat % 2 ^ 64 else 0 := by
  rw [shiftLeft, logicalShift_toNat, BitVec.toNat_ofNat]

/-- The narrowing to 64 bits is exact on a right shift: the quotient is no more than the value (42 R150). -/
theorem shiftRight_toNat (v n : Word) :
    (shiftRight v n).toNat = if n.toNat < 64 then v.toNat / 2 ^ n.toNat else 0 := by
  have hquot : v.toNat / 2 ^ n.toNat < 2 ^ 64 := (Nat.div_le_self ..).trans_lt v.isLt
  rw [shiftRight, logicalShift_toNat, BitVec.toNat_ofNat, Nat.mod_eq_of_lt hquot]

/-- Settles O25: either shift reads the destination, then the amount, and writes the shifted value as its one effect. -/
theorem shiftsWriteLogicalResult : Obligations.ShiftsWriteLogicalResult :=
  ⟨fun _ _ _ hd hm => ⟨_, shiftLeft_toNat .., exec_of_body_ok (readReg_readReg_writeReg_named shiftLeft hd hd hm)⟩,
    fun _ _ _ hd hm => ⟨_, shiftRight_toNat .., exec_of_body_ok (readReg_readReg_writeReg_named shiftRight hd hd hm)⟩⟩

end Sys2Proof.Machine
end

section
/-! PROOFS. JMP, JPR and the six conditional jumps: where they go, which unnamed register they fault on, and the pc
after every instruction that transfers no control. -/

namespace Sys2Proof.Machine

/-! ### The conditional jumps -/

/-- Two values are equal exactly when they are equal as unsigned integers (43 R162). -/
theorem relationHolds_eq_iff {a b : Word} : relationHolds .eq a b = true ↔ a.toNat = b.toNat :=
  decide_eq_true_iff.trans BitVec.toNat_inj.symm

theorem relationHolds_ne_iff {a b : Word} : relationHolds .ne a b = true ↔ a.toNat ≠ b.toNat :=
  decide_eq_true_iff.trans (not_congr BitVec.toNat_inj.symm)

/-- A conditional jump between named registers moves the pc alone: to the target where its relation is `P` of the two
operands and `P` holds, and otherwise past the instruction (43 R160, R162). -/
theorem jumpIf_named {o : Opcode} {s : State} {a b : Byte} {addr : Word} {r : Relation} {P : Prop} [Decidable P]
    (ha : namesRegister a = true) (hb : namesRegister b = true)
    (hP : relationHolds r (regOperand o s a) (regOperand o s b) = true ↔ P) :
    jumpIf r a b addr (afterFetch o s) = .ok { s with pc := if P then addr.setWidth 32 else nextPc o s } := by
  rw [jumpIf, readReg_named ha, except_bind_ok, readReg_named hb, except_bind_ok]
  by_cases h : P
  · rw [if_pos (hP.2 h), if_pos h]
    rfl
  · rw [if_neg (mt hP.1 h), if_neg h]
    rfl

/-- Settles O27: each of the six is `jumpIf` of its relation, which compares the operands as unsigned integers. -/
theorem conditionalJumpsFollowTheirRelation : Obligations.ConditionalJumpsFollowTheirRelation := fun _ _ _ _ ha hb =>
  ⟨exec_of_body_ok (jumpIf_named ha hb decide_eq_true_iff), exec_of_body_ok (jumpIf_named ha hb decide_eq_true_iff),
    exec_of_body_ok (jumpIf_named ha hb decide_eq_true_iff), exec_of_body_ok (jumpIf_named ha hb decide_eq_true_iff),
    exec_of_body_ok (jumpIf_named ha hb relationHolds_eq_iff),
    exec_of_body_ok (jumpIf_named ha hb relationHolds_ne_iff)⟩

/-- The pseudocode of each of the six conditional jumps is `jumpIf` of one relation (43 R163 to R168). -/
theorem execBody_conditionalJump {i : Instr} {a b : Byte} {addr : Word}
    (hi : i ∈ [Instr.jlt a b addr, .jle a b addr, .jgt a b addr, .jge a b addr, .jeq a b addr, .jne a b addr])
    (s : State) : ∃ r, execBody i s = jumpIf r a b addr := by
  simp only [List.mem_cons, List.not_mem_nil, or_false] at hi
  rcases hi with rfl | rfl | rfl | rfl | rfl | rfl
  · exact ⟨.lt, rfl⟩
  · exact ⟨.le, rfl⟩
  · exact ⟨.gt, rfl⟩
  · exact ⟨.ge, rfl⟩
  · exact ⟨.eq, rfl⟩
  · exact ⟨.ne, rfl⟩

/-- The first register is read first, whatever the relation and the second register (60 R202). -/
theorem jumpIf_unnamed_first {r : Relation} {a b : Byte} {addr : Word} {u : State} (ha : namesRegister a = false) :
    jumpIf r a b addr u = .error ⟨.registerIndex, indexInfo a⟩ := by
  rw [jumpIf, readReg_unnamed ha, except_bind_error]

/-- The second register is read before the relation is asked, so it faults whether or not the jump would be taken
(43 R162). -/
theorem jumpIf_unnamed_second {o : Opcode} {s : State} {r : Relation} {a b : Byte} {addr : Word}
    (ha : namesRegister a = true) (hb : namesRegister b = false) :
    jumpIf r a b addr (afterFetch o s) = .error ⟨.registerIndex, indexInfo b⟩ := by
  rw [jumpIf, readReg_named ha, except_bind_ok, readReg_unnamed hb, except_bind_error]

/-- Settles O38: the six share `jumpIf`, which reads the first register, then the second; JPR reads its one register. -/
theorem jumpFaultOrder : Obligations.JumpFaultOrder := by
  intro s a b addr i hi
  obtain ⟨r, hbody⟩ := execBody_conditionalJump hi s
  refine ⟨fun ha => ⟨faults_of_body_error ?_, faults_of_body_error ?_⟩, fun ha hb => faults_of_body_error ?_⟩
  · rw [hbody, jumpIf_unnamed_first ha]
  · rw [execBody, readReg_unnamed ha, except_bind_error]
  · rw [hbody, jumpIf_unnamed_second ha hb]

/-! ### JMP and JPR -/

/-- Settles O26: either jump is one `jumpTo`, which keeps the low 32 bits of the literal or of JPR's operand. -/
theorem jumpsTakeLowTargetBits : Obligations.JumpsTakeLowTargetBits := by
  refine ⟨fun s addr => ⟨addr.setWidth 32, BitVec.toNat_setWidth .., exec_of_body_ok rfl⟩,
    fun s r hr => ⟨(regOperand .jpr s r).setWidth 32, BitVec.toNat_setWidth .., exec_of_body_ok ?_⟩⟩
  rw [execBody, Instr.opcode, readReg_named hr, except_bind_ok]
  rfl

/-! ### The pc where no control is transferred -/

/-- A register write that completes leaves the pc, unless the index is 15 (10 R26). -/
theorem writeReg_pc_of_ne {u t : State} {d : Byte} {v : Word} (h : writeReg u d v = .ok t) (hd : d ≠ 15) :
    t.pc = u.pc := by
  rcases writeReg_eq_ok h with ⟨-, rfl⟩ | ⟨h15, -⟩
  · rfl
  · exact absurd (BitVec.eq_of_toNat_eq h15) hd

/-- An effect that is no jump, CALL or RET and writes no index 15 leaves the pc past the instruction, or is RX's wait
(43 R160, 10 R39). -/
theorem Effect.pc_cases {i : Instr} {s t : State} (h : Effect i s (afterFetch i.opcode s) t)
    (hi : i.opcode ∉ [Opcode.jmp, .jlt, .jle, .jgt, .jge, .jeq, .jne, .jpr, .call, .ret])
    (hd : destination i ≠ some 15) : t.pc = nextPc i.opcode s ∨ (i.opcode = .rx ∧ s.inp = [] ∧ t = s) := by
  cases h
  case wait hrx hin _ => exact .inr ⟨hrx, hin, rfl⟩
  case jump hj => exact absurd (List.mem_append_left [Opcode.call, .ret] hj) hi
  case call hc _ | ret hc _ => simp [hc, Instr.opcode] at hi
  case write d _ hdest _ _ ht => exact .inl (writeReg_pc_of_ne ht fun h15 => hd (h15 ▸ hdest))
  case pop d _ _ hp _ ht | receive d _ _ hp _ ht =>
    subst hp
    exact .inl (writeReg_pc_of_ne ht fun h15 => hd (h15 ▸ rfl))
  all_goals exact .inl rfl

/-- Settles O44: an effect by its pc; a fault is excluded by the run state. -/
theorem otherInstructionsFallThrough : Obligations.OtherInstructionsFallThrough := by
  intro i s t _ h htrun hi hd
  rcases exec_effect h with he | ⟨e, -, rfl⟩
  · exact he.pc_cases hi hd
  · exact absurd rfl htrun

end Sys2Proof.Machine
end

section
/-! PROOFS. PUSH and POP, and the order in which PUSH, POP, CALL and RET fault. -/

namespace Sys2Proof.Machine

/-! ### The stack unit after the fetches, and the call-target check -/

theorem pushWord_afterFetch_ok {o : Opcode} {s : State} (v : Word) (h : stackFull s = false) :
    pushWord (afterFetch o s) v = .ok { s with stack := s.stack ++ [v], pc := nextPc o s } := by
  rw [pushWord, stackFull_afterFetch, h]
  rfl

theorem pushWord_afterFetch_full {o : Opcode} {s : State} (v : Word) (h : stackFull s = true) :
    pushWord (afterFetch o s) v = .error ⟨.stackOverflow, 0⟩ := by
  rw [pushWord, stackFull_afterFetch, if_pos h]

/-- A pop after the fetches leaves the state that the fetches make of the one without the top entry. -/
theorem popWord_afterFetch_snoc {o : Opcode} {s : State} {st : List Word} {v : Word} (h : s.stack = st ++ [v]) :
    popWord (afterFetch o s) = .ok (v, afterFetch o (s.setStack st)) :=
  popWord_snoc (s := afterFetch o s) h

theorem popWord_afterFetch_nil {o : Opcode} {s : State} (h : s.stack = []) :
    popWord (afterFetch o s) = .error ⟨.stackUnderflow, 0⟩ :=
  popWord_nil (s := afterFetch o s) h

/-- A target is accepted exactly when it is in the set of targets, where there is one (45 R183). -/
theorem callAllowed_iff {s : State} {addr : Word} :
    callAllowed s addr = true ↔ ∀ targets, s.cfg.callTargets = some targets → addr ∈ targets := by
  unfold callAllowed
  cases s.cfg.callTargets <;> simp

/-! ### PUSH and POP -/

/-- Settles O28: PUSH reads the register after the fetches, and its value finds room. -/
theorem pushAppendsTheRegister : Obligations.PushAppendsTheRegister := by
  intro s r hr hroom
  apply exec_of_body_ok
  rw [execBody, Instr.opcode, readReg_named hr, except_bind_ok, pushWord_afterFetch_ok _ hroom]

/-- An instruction's result takes nothing from the stack and leaves it (10 R26). -/
theorem withResult_setStack (o : Opcode) (s : State) (d : Byte) (v : Word) (st : List Word) :
    withResult o (s.setStack st) d v = (withResult o s d v).setStack st := by
  unfold withResult
  split <;> rfl

/-- Settles O29: the write after the pop is the instruction's result at the state without the top entry. -/
theorem popWritesTheTopEntry : Obligations.PopWritesTheTopEntry := by
  intro s st v d hst hd
  apply exec_of_body_ok
  rw [execBody, Instr.opcode, popWord_afterFetch_snoc hst, except_bind_ok, writeReg_named hd, withResult_setStack]
  rfl

/-! ### The order of the faults -/

/-- A POP to an unnamed destination faults on the write, after the pop (44 R177). -/
theorem pop_faults_of_unnamed {s : State} {d : Byte} (hst : s.stack ≠ []) (hd : namesRegister d = false) :
    Faults (.pop d) s .registerIndex (indexInfo d) := by
  obtain ⟨st, v, -, hpop⟩ | ⟨hnil, -⟩ := popWord_cases (afterFetch .pop s)
  · apply faults_of_body_error
    rw [execBody, Instr.opcode, hpop, except_bind_ok, writeReg_unnamed hd]
  · exact absurd hnil hst

/-- A refused CALL faults on its target, whatever the stack holds (45 R183). -/
theorem call_faults_of_refused {s : State} {addr : Word} (ha : ¬ callAllowed s addr = true) :
    Faults (.call addr) s .callTarget addr := by
  apply faults_of_body_error
  rw [execBody, callAllowed_afterFetch, if_neg ha]

/-- An accepted CALL gets as far as the push, which faults on a full stack (45 R181). -/
theorem call_faults_of_full {s : State} {addr : Word} (ha : callAllowed s addr = true) (hfull : stackFull s = true) :
    Faults (.call addr) s .stackOverflow 0 := by
  apply faults_of_body_error
  rw [execBody, callAllowed_afterFetch, if_pos ha, pushWord_afterFetch_full _ hfull, except_bind_error]

/-- Settles O39: each fault is that of the first statement of the instruction's pseudocode that raises. -/
theorem stackFaultOrder : Obligations.StackFaultOrder := by
  intro s r addr targets
  refine ⟨fun hr => faults_of_body_error ?_, fun hr hfull => faults_of_body_error ?_,
    fun hnil => ⟨faults_of_body_error ?_, faults_of_body_error ?_⟩, pop_faults_of_unnamed, fun hsome hout => ?_,
    fun hsome hin hfull => ?_, fun hnone hfull => ?_⟩
  · rw [execBody, readReg_unnamed hr, except_bind_error]
  · rw [execBody, Instr.opcode, readReg_named hr, except_bind_ok, pushWord_afterFetch_full _ hfull]
  · rw [execBody, popWord_afterFetch_nil hnil, except_bind_error]
  · rw [execBody, popWord_afterFetch_nil hnil, except_bind_error]
  · exact call_faults_of_refused fun ha => hout (callAllowed_iff.1 ha _ hsome)
  · exact call_faults_of_full (callAllowed_iff.2 fun _ h => Option.some.inj (hsome.symm.trans h) ▸ hin) hfull
  · exact call_faults_of_full (callAllowed_iff.2 fun _ h => by simp [hnone] at h) hfull

end Sys2Proof.Machine
end

section
/-! PROOFS. CALL and RET: the entry a completed CALL leaves on the stack, and the RET that takes it. -/

namespace Sys2Proof.Machine

/-- What CALL pushes: the address of the next instruction in sequence, widened with zeros (45 R180). -/
def returnAddress (s : State) : Word := (nextPc .call s).setWidth 64

theorem returnAddress_toNat (s : State) : (returnAddress s).toNat = (s.pc.toNat + 9) % 2 ^ 32 := by
  rw [returnAddress, BitVec.toNat_setWidth_of_le (by decide)]
  exact BitVec.toNat_add ..

/-- The pc keeps all 32 bits of the return address (10 R29). -/
theorem returnAddress_setWidth (s : State) : (returnAddress s).setWidth 32 = s.pc + 9 := by
  rw [returnAddress, BitVec.setWidth_setWidth_of_le _ (by decide), BitVec.setWidth_eq]
  rfl

theorem exec_call_of_allowed {s : State} {addr : Word} (ha : callAllowed s addr = true) (hroom : stackFull s = false) :
    exec (.call addr) s = .next { s with stack := s.stack ++ [returnAddress s], pc := addr.setWidth 32 } := by
  apply exec_of_body_ok
  rw [execBody, callAllowed_afterFetch, if_pos ha, pushWord_afterFetch_ok _ hroom, except_bind_ok]
  rfl

theorem exec_ret_snoc {s : State} {st : List Word} {v : Word} (h : s.stack = st ++ [v]) :
    exec .ret s = .next { s with stack := st, pc := v.setWidth 32 } := by
  apply exec_of_body_ok
  rw [execBody, popWord_afterFetch_snoc h, except_bind_ok]
  rfl

theorem ret_faults_of_empty {s : State} (h : s.stack = []) : Faults .ret s .stackUnderflow 0 := by
  apply faults_of_body_error
  rw [execBody, popWord_afterFetch_nil h, except_bind_error]

/-- An instruction that ends in a fault has no Running next state (60 R203). -/
theorem Faults.run_ne_running {i : Instr} {s t : State} {kind : FaultKind} {info : Word} (hf : Faults i s kind info)
    (h : exec i s = .next t) : t.run ≠ .running := by
  obtain ⟨t', h', p, rfl⟩ := hf
  obtain rfl := Host.Outcome.next.inj (h'.symm.trans h)
  simp

/-- A CALL that did not fault was accepted and found room, so it left its return address on top (45 R181). -/
theorem call_stack_of_running {s t : State} {addr : Word} (h : exec (.call addr) s = .next t)
    (hrun : t.run = .running) : t.stack = s.stack ++ [returnAddress s] := by
  by_cases ha : callAllowed s addr = true
  · cases hfull : stackFull s
    · obtain rfl := Host.Outcome.next.inj ((exec_call_of_allowed ha hfull).symm.trans h)
      rfl
    · exact absurd hrun ((call_faults_of_full ha hfull).run_ne_running h)
  · exact absurd hrun ((call_faults_of_refused ha).run_ne_running h)

/-- Settles O30: an accepted CALL with room pushes `returnAddress`, which is `(pc0 + 9) mod 2^32`. -/
theorem callPushesReturnAddress : Obligations.CallPushesReturnAddress := fun s _ hroom htargets =>
  ⟨returnAddress s, returnAddress_toNat s, exec_call_of_allowed (callAllowed_iff.2 htargets) hroom⟩

/-- Settles O32: the entry on top is the CALL's return address, whose low 32 bits are just after the CALL. -/
theorem returnUndoesCall : Obligations.ReturnUndoesCall := by
  intro s t u addr h hrun hstack
  rw [exec_ret_snoc (hstack.trans (call_stack_of_running h hrun)), returnAddress_setWidth]

/-- Settles O31: RET is a pop and a jump, and the pop raises on the empty stack. -/
theorem retJumpsToTheTopEntry : Obligations.RetJumpsToTheTopEntry :=
  ⟨rfl, fun _ _ v hst => ⟨v.setWidth 32, BitVec.toNat_setWidth .., exec_ret_snoc hst⟩,
    fun _ => ret_faults_of_empty⟩

end Sys2Proof.Machine
end

section
/-! PROOFS. TX, RX and HLT: what a completed one leaves, and the order in which TX and RX fault. -/

namespace Sys2Proof.Machine

/-! ### TX -/

/-- Settles O33: TX reads the register after the fetches and sends the low eight bits of what it read. -/
theorem transmitAppendsLowByte : Obligations.TransmitAppendsLowByte := by
  refine fun s r hr => ⟨(regOperand .tx s r).setWidth 8, BitVec.toNat_setWidth .., exec_of_body_ok ?_⟩
  rw [execBody, Instr.opcode, readReg_named hr, except_bind_ok]
  rfl

/-! ### RX -/

/-- With a byte in the channel, RX is a register write at the state that the fetches make of the one without that byte
(46 R192). -/
theorem execBody_rx_of_cons {s : State} {b : Byte} {rest : List Byte} (h : s.inp = b :: rest) (d : Byte) :
    execBody (.rx d) s (afterFetch .rx s) = writeReg (afterFetch .rx (s.setInp rest)) d (b.setWidth 64) := by
  rw [execBody, rxByte_cons (s := afterFetch .rx s) h, except_bind_ok]
  rfl

/-- An instruction's result takes nothing from the input channel and leaves it (10 R26). -/
theorem withResult_setInp (o : Opcode) (s : State) (d : Byte) (v : Word) (bs : List Byte) :
    withResult o (s.setInp bs) d v = (withResult o s d v).setInp bs := by
  unfold withResult
  split <;> rfl

/-- Settles O34: the write after the receive is the instruction's result at the state without the byte. -/
theorem receiveWritesNextByte : Obligations.ReceiveWritesNextByte := by
  refine fun s b rest d hin hd => ⟨b.setWidth 64, byte_zeroExtend_toNat b, exec_of_body_ok ?_⟩
  rw [Instr.opcode, execBody_rx_of_cons hin, writeReg_named hd, withResult_setInp]
  rfl

/-! ### HLT -/

/-- Settles O35: HLT's pseudocode is `halt` after the fetch, and a state that is not Running has no step. -/
theorem haltEndsTheRun : Obligations.HaltEndsTheRun := by
  refine ⟨rfl, fun s => ⟨exec_of_body_ok rfl, ?_⟩⟩
  obtain ⟨hstop, -⟩ := runEndsOnlyByHaltOrFault
  exact hstop _ (by simp)

/-! ### The order of the faults -/

/-- An RX to an unnamed destination faults on the write, after the receive (46 R192). -/
theorem rx_faults_of_unnamed {s : State} {d : Byte} (hin : s.inp ≠ []) (hd : namesRegister d = false) :
    Faults (.rx d) s .registerIndex (indexInfo d) := by
  obtain ⟨b, rest, hcons⟩ := List.exists_cons_of_ne_nil hin
  apply faults_of_body_error
  rw [Instr.opcode, execBody_rx_of_cons hcons, writeReg_unnamed hd]

/-- Settles O40: TX reads its register first; RX receives, then writes. -/
theorem channelFaultOrder : Obligations.ChannelFaultOrder := by
  refine fun s r => ⟨fun hr => faults_of_body_error ?_, fun hin hp => faults_of_body_error ?_, rx_faults_of_unnamed⟩
  · rw [execBody, readReg_unnamed hr, except_bind_error]
  · rw [execBody, rxByte_fault (s := afterFetch _ s) hin hp, except_bind_error]

end Sys2Proof.Machine
end

section
/-! PROOFS. The front part and the end of a step that faults: the operand fetches, the fault as the one way to end
Faulted, what a fault keeps and what its record says, and that a Running machine always steps. -/

namespace Sys2Proof.Machine

/-! ### The fetches -/

/-- A front part whose first byte out of range is an operand byte faults with that byte's address (20 R54, 30 R89). -/
theorem fetchInstr_of_operand_out_of_range {s : State} {o : Opcode} {k : Nat} (halloc : allocatedAtPc s (k + 1))
    (hk : k < o.format.operandBytes) (hop : s.mem.read s.pc.toNat = o.code)
    (hout : s.cfg.memSize ≤ (s.pc + BitVec.ofNat 32 (k + 1)).toNat) :
    fetchInstr s = .error ⟨some o.code, ⟨.memoryRange, (s.pc + BitVec.ofNat 32 (k + 1)).setWidth 64⟩⟩ := by
  rw [← advance_one_pc] at hout ⊢
  simp only [fetchInstr, fetch8_ok (allocatedAtPc_head halloc), hop, decodeOpcode_code,
    fetchBytes_first_out_of_range k _ _ hk (allocatedAtPc_tail halloc) hout]

/-- Settles O8: after the opcode byte the operand fetches fault at their first byte out of range, and the step is that
fault: no register operand has been read. -/
theorem operandFetchOutOfRangeFaults : Obligations.OperandFetchOutOfRangeFaults := by
  intro s o k hrun halloc hpos hk hop hout
  obtain ⟨k, rfl⟩ := Nat.exists_eq_add_one.2 hpos
  have hlen : k < o.format.operandBytes := by
    rw [Opcode.length] at hk
    omega
  exact ⟨_, step_of_fetchInstr_error hrun (fetchInstr_of_operand_out_of_range halloc hlen hop hout), _, rfl⟩

/-! ### Every Running machine steps -/

/-- Every instruction has a next state at every state, its fault included (60 R203). -/
theorem exec_eq_next (i : Instr) (s : State) : ∃ t, exec i s = .next t := by
  cases h : execBody i s (afterFetch i.opcode s) with
  | ok t => exact ⟨t, exec_of_body_ok h⟩
  | error e => exact ⟨_, exec_of_body_error h⟩

/-- Settles O50: the front part faults, which is a next state, or it fetches an instruction, which has one. -/
theorem runningMachineAlwaysSteps : Obligations.RunningMachineAlwaysSteps := by
  intro s hrun
  cases h : fetchInstr s with
  | error f => exact ⟨_, step_of_fetchInstr_error hrun h⟩
  | ok i =>
    rw [step_of_fetchInstr_ok hrun h]
    exact exec_eq_next i s

/-! ### Ending Faulted -/

/-- An instruction that ends Faulted, from a state that was not, raised a fault: no effect writes Faulted. -/
theorem exec_faulted {i : Instr} {s t : State} (hrun : s.run ≠ .faulted) (h : exec i s = .next t)
    (ht : t.run = .faulted) :
    ∃ e, execBody i s (afterFetch i.opcode s) = .error e ∧ t = raise s (some i.opcode.code) e := by
  rcases exec_cases h with hok | herr
  · obtain ⟨-, hr | ⟨-, hr⟩⟩ := (execBody_effect hok).run_fault
    · exact absurd (hr.symm.trans ht) hrun
    · simp [hr] at ht
  · exact herr

/-- A step that ends Faulted took the fault of the fetched instruction's pseudocode or that of the front part. -/
theorem step_faulted {s t : State} (h : step s = .next t) (ht : t.run = .faulted) :
    (∃ i e, fetchInstr s = .ok i ∧ Raised i (afterFetch i.opcode s) e ∧ t = raise s (some i.opcode.code) e) ∨
      ∃ f, fetchInstr s = .error f ∧ t = raise s f.opcode f.trap := by
  obtain ⟨hrun, ⟨i, hf, hx⟩ | hf⟩ := step_cases h
  · obtain ⟨e, herr, rfl⟩ := exec_faulted (by simp [hrun]) hx ht
    exact .inl ⟨i, e, hf, execBody_raised herr, rfl⟩
  · exact .inr hf

/-! ### What a fault keeps -/

/-- Taking a fault is the faulted state of the claims: all but the run state, the record and the pc is kept
(60 R203). -/
theorem raise_faultedFrom (s : State) (op : Option Byte) (e : Trap) :
    FaultedFrom s (raise s op e) op e.kind e.info := ⟨_, rfl⟩

/-- A fault of the front part carries the byte at the pc, unless that byte's own fetch faulted (10 R36). -/
theorem fetchInstr_error_opcode {s : State} {f : FetchFault} (h : fetchInstr s = .error f) :
    (s.pc.toNat < s.cfg.memSize → f.opcode = some (s.mem.read s.pc.toNat)) ∧
      (s.cfg.memSize ≤ s.pc.toNat → f.opcode = none) := by
  rcases fetchInstr_error h with ⟨hpc, rfl⟩ | ⟨hpc, -, rfl⟩ | ⟨o, a, hpc, hop, -, -, rfl⟩
  · exact ⟨fun hlt => absurd hpc (Nat.not_le.2 hlt), fun _ => rfl⟩
  · exact ⟨fun _ => rfl, fun hle => absurd hpc (Nat.not_lt.2 hle)⟩
  · exact ⟨fun _ => congrArg some hop.symm, fun hle => absurd hpc (Nat.not_lt.2 hle)⟩

/-- Settles O46: a step that ends Faulted is `raise` at its start state, with the opcode byte the front part found. -/
theorem faultKeepsAllButTheRecord : Obligations.FaultKeepsAllButTheRecord := by
  intro s t h ht
  rcases step_faulted h ht with ⟨i, e, hf, -, rfl⟩ | ⟨f, hf, rfl⟩
  · obtain ⟨hpc, hop⟩ := fetchInstr_ok hf
    exact ⟨_, _, _, raise_faultedFrom .., fun _ => congrArg some hop.symm, fun hle => absurd hpc (Nat.not_lt.2 hle)⟩
  · exact ⟨_, _, _, raise_faultedFrom .., fetchInstr_error_opcode hf⟩

/-! ### What a record says -/

/-- What a fault of each kind says of the `info` value, of the opcode byte where it is the bad one, and of the state at
the start of the step (60 R200). -/
def FaultCause (s : State) (op : Option Byte) (info : Word) : FaultKind → Prop
  | .unknownOpcode => ∃ b, op = some b ∧ decodeOpcode b = none ∧ info = b.setWidth 64
  | .memoryRange => s.cfg.memSize ≤ info.toNat
  | .registerIndex => ∃ i : Byte, 15 < i.toNat ∧ info = i.setWidth 64
  | .stackUnderflow => info = 0 ∧ s.stack = []
  | .stackOverflow => info = 0 ∧ stackFull s = true
  | .callTarget => ∃ targets, s.cfg.callTargets = some targets ∧ info ∉ targets
  | .inputUnavailable => info = 0 ∧ s.inp = [] ∧ s.cfg.rxEmpty = .fault

/-- What an instruction raises has its kind's cause at the start of the step: the fetches changed the pc alone. -/
theorem Raised.faultCause {i : Instr} {s : State} {e : Trap} (h : Raised i (afterFetch i.opcode s) e)
    (op : Option Byte) : FaultCause s op e.info e.kind := by
  cases h
  case register r _ hr => exact ⟨r, hr, rfl⟩
  case range hle => exact hle
  case underflow hnil => exact ⟨rfl, hnil⟩
  case overflow hfull => exact ⟨rfl, hfull⟩
  case target addr _ hno =>
    have hout : ¬ callAllowed s addr = true := by simpa using hno
    simpa [FaultCause, callAllowed_iff] using hout
  case noInput hin hp => exact ⟨rfl, hin, hp⟩

/-- A fault of the front part has its kind's cause. -/
theorem fetchInstr_error_faultCause {s : State} {f : FetchFault} (h : fetchInstr s = .error f) :
    FaultCause s f.opcode f.trap.info f.trap.kind := by
  rcases fetchInstr_error h with ⟨hpc, rfl⟩ | ⟨-, hop, rfl⟩ | ⟨o, a, -, -, -, ha, rfl⟩
  · exact hpc.trans_eq (BitVec.toNat_setWidth_of_le (by decide)).symm
  · exact ⟨_, rfl, hop, rfl⟩
  · exact ha

/-- The record of a step that ends Faulted has its kind's code and its kind's cause (60 R200). -/
theorem step_faulted_record {s t : State} {r : FaultRecord} (h : step s = .next t) (ht : t.run = .faulted)
    (hr : t.fault = some r) : r.code = r.kind.code ∧ FaultCause s r.opcode r.info r.kind := by
  rcases step_faulted h ht with ⟨i, e, -, hraised, rfl⟩ | ⟨f, hf, rfl⟩
  · obtain rfl := Option.some.inj hr
    exact ⟨rfl, hraised.faultCause _⟩
  · obtain rfl := Option.some.inj hr
    exact ⟨rfl, fetchInstr_error_faultCause hf⟩

/-- Settles O47: each clause is the cause of the record's kind. -/
theorem faultCodesAndInfo : Obligations.FaultCodesAndInfo := by
  refine ⟨rfl, fun k => by cases k <;> decide, fun s t r h ht hr => ?_⟩
  obtain ⟨hcode, hcause⟩ := step_faulted_record h ht hr
  have cause_at : ∀ k, r.kind = k → FaultCause s r.opcode r.info k := fun _ hk => hk ▸ hcause
  exact ⟨hcode, cause_at .unknownOpcode, cause_at .memoryRange, cause_at .registerIndex, cause_at .stackUnderflow,
    cause_at .stackOverflow, cause_at .callTarget, cause_at .inputUnavailable⟩

/-! ### Which faults an instruction raises -/

/-- NOP, HLT and JMP raise nothing (60 R201). -/
theorem opcode_not_mem_of_execBody_error {i : Instr} {s u : State} {e : Trap} (h : execBody i s u = .error e) :
    i.opcode ∉ [Opcode.nop, .hlt, .jmp] := by
  cases i
  case nop | hlt | jmp => simp [execBody] at h
  all_goals simp [Instr.opcode]

/-- A register operand above 15 is one that names no register. -/
theorem registersNamed_eq_false {i : Instr} {r : Byte} (hr : r ∈ i.registerOperands) (h : 15 < r.toNat) :
    i.registersNamed = false :=
  List.all_eq_false.2 ⟨r, hr, by simp [namesRegister_false.2 h]⟩

/-- The kinds an instruction can raise are those that the table gives it (60 R201). -/
theorem Raised.kind_cases {i : Instr} {u : State} {e : Trap} (h : Raised i u e) :
    (e.kind = .registerIndex ∧ i.registersNamed = false) ∨
      (e.kind = .memoryRange ∧ i.opcode ∈ [Opcode.ld, .ldr, .sto, .str]) ∨
      (e.kind = .stackUnderflow ∧ i.opcode ∈ [Opcode.pop, .ret]) ∨
      (e.kind = .stackOverflow ∧ i.opcode ∈ [Opcode.push, .call]) ∨
      (e.kind = .callTarget ∧ i.opcode = .call) ∨ (e.kind = .inputUnavailable ∧ i.opcode = .rx) := by
  cases h
  case register r hr hbad => exact .inl ⟨rfl, registersNamed_eq_false hr hbad⟩
  case target hi _ => simp [hi, Instr.opcode]
  case range hi _ | underflow hi _ | overflow hi _ | noInput hi _ _ => simpa using hi

/-- Settles O48: what ends an instruction Faulted is what its pseudocode raised. -/
theorem instructionsRaiseOnlyTheirFaults : Obligations.InstructionsRaiseOnlyTheirFaults := by
  intro i s t hrun h ht
  obtain ⟨e, herr, rfl⟩ := exec_faulted hrun h ht
  exact ⟨_, rfl, opcode_not_mem_of_execBody_error herr, (execBody_raised herr).kind_cases⟩

end Sys2Proof.Machine
end

section
/-! PROOFS. The order in which SET, ADD, SUB, the shifts, the loads and the stores fault (60 R202). -/

namespace Sys2Proof.Machine

/-! ### Two sources and one destination -/

/-- A sequence that begins with the read of an unnamed register raises that index. -/
theorem readReg_bind_unnamed {u : State} {r : Byte} (k : Word → Except Trap State) (hr : namesRegister r = false) :
    (readReg u r >>= k) = .error ⟨.registerIndex, indexInfo r⟩ := by
  rw [readReg_unnamed hr, except_bind_error]

/-- With the first source named, an unnamed second one is what faults, whatever follows. -/
theorem readReg_readReg_bind_unnamed {o : Opcode} {s : State} {a b : Byte} (k : Word → Word → Except Trap State)
    (ha : namesRegister a = true) (hb : namesRegister b = false) :
    (readReg (afterFetch o s) a >>= fun va => readReg (afterFetch o s) b >>= k va) =
      .error ⟨.registerIndex, indexInfo b⟩ := by
  rw [readReg_named ha, except_bind_ok, readReg_bind_unnamed _ hb]

/-- With both sources named, an unnamed destination is what faults, whatever the value. -/
theorem readReg_readReg_writeReg_unnamed {o : Opcode} {s : State} {d a b : Byte} (f : Word → Word → Word)
    (ha : namesRegister a = true) (hb : namesRegister b = true) (hd : namesRegister d = false) :
    (readReg (afterFetch o s) a >>= fun va => readReg (afterFetch o s) b >>= fun vb =>
        writeReg (afterFetch o s) d (f va vb)) = .error ⟨.registerIndex, indexInfo d⟩ := by
  rw [readReg_named ha, except_bind_ok, readReg_named hb, except_bind_ok, writeReg_unnamed hd]

/-- Settles O36: ADD and SUB read two sources and write a destination; the shifts read their destination first, so that
a destination left unnamed is found by that read. -/
theorem arithmeticFaultOrder : Obligations.ArithmeticFaultOrder := by
  intro s d a b v
  exact ⟨fun hd => faults_of_body_error (writeReg_unnamed hd),
    fun ha => faults_of_body_error (readReg_bind_unnamed _ ha),
    fun ha hb => faults_of_body_error (readReg_readReg_bind_unnamed _ ha hb),
    fun ha hb hd => faults_of_body_error (readReg_readReg_writeReg_unnamed wrapAdd ha hb hd),
    fun ha => faults_of_body_error (readReg_bind_unnamed _ ha),
    fun ha hb => faults_of_body_error (readReg_readReg_bind_unnamed _ ha hb),
    fun ha hb hd => faults_of_body_error (readReg_readReg_writeReg_unnamed wrapSub ha hb hd),
    fun hd => faults_of_body_error (readReg_bind_unnamed _ hd),
    fun hd ha => faults_of_body_error (readReg_readReg_bind_unnamed _ hd ha),
    fun hd => faults_of_body_error (readReg_bind_unnamed _ hd),
    fun hd ha => faults_of_body_error (readReg_readReg_bind_unnamed _ hd ha)⟩

/-! ### Loads and stores -/

/-- The end of both loads raises on an address out of range, whatever the destination (41 R141, R143). -/
theorem memRead_writeReg_bad {o : Opcode} {s : State} (d : Byte) {addr : Word} (ha : s.cfg.memSize ≤ addr.toNat) :
    (memRead (afterFetch o s) addr >>= fun b => writeReg (afterFetch o s) d (b.setWidth 64)) =
      .error ⟨.memoryRange, addr⟩ := by
  rw [memRead_afterFetch, memRead_bad ha, except_bind_error]

/-- The end of both loads raises an unnamed destination after an access in range. -/
theorem memRead_writeReg_unnamed {o : Opcode} {s : State} {d : Byte} {addr : Word} (ha : addr.toNat < s.cfg.memSize)
    (hd : namesRegister d = false) :
    (memRead (afterFetch o s) addr >>= fun b => writeReg (afterFetch o s) d (b.setWidth 64)) =
      .error ⟨.registerIndex, indexInfo d⟩ := by
  rw [memRead_afterFetch, memRead_ok ha, except_bind_ok, writeReg_unnamed hd]

/-- Settles O37: LDR is its pointer's read and then LD's end at the operand's value; the stores read their registers and
then access the memory. -/
theorem loadStoreFaultOrder : Obligations.LoadStoreFaultOrder := by
  intro s r p addr
  refine ⟨fun ha => faults_of_body_error (memRead_writeReg_bad r ha),
    fun ha hr => faults_of_body_error (memRead_writeReg_unnamed ha hr),
    fun hr => faults_of_body_error (readReg_bind_unnamed _ hr), fun hr ha => faults_of_body_error ?_,
    fun hp => faults_of_body_error (readReg_bind_unnamed _ hp), fun hp ha => faults_of_body_error ?_,
    fun hp ha hr => faults_of_body_error ?_, fun hr => faults_of_body_error (readReg_bind_unnamed _ hr),
    fun hr hp => faults_of_body_error (readReg_readReg_bind_unnamed _ hr hp),
    fun hr hp ha => faults_of_body_error ?_⟩
  · rw [execBody, Instr.opcode, readReg_named hr, except_bind_ok, memWrite_afterFetch_bad _ ha]
  · rw [execBody, Instr.opcode, readReg_named hp, except_bind_ok, memRead_writeReg_bad r ha]
  · rw [execBody, Instr.opcode, readReg_named hp, except_bind_ok, memRead_writeReg_unnamed ha hr]
  · rw [execBody, Instr.opcode, readReg_named hr, except_bind_ok, readReg_named hp, except_bind_ok,
      memWrite_afterFetch_bad _ ha]

end Sys2Proof.Machine
end

section
/-! PROOFS. The boot: the bytes and the shape of the memory that `reset(image)` leaves, and its state and refusal. -/

namespace Sys2Proof.Machine

/-! ### Reads of the loaded memory -/

/-- Dropping entries at other addresses does not change what an address reads as. -/
theorem Memory.read_filter {p : Host.Cell → Bool} {a : Nat} (hp : ∀ b, p (a, b) = true) :
    ∀ m : Memory, Memory.read (m.filter p) a = m.read a
  | [] => rfl
  | (k, b) :: m => by
    have ih := Memory.read_filter hp m
    by_cases hk : k = a
    · subst hk
      simp [hp, Memory.read]
    · cases hkeep : p (k, b) <;> simp [hkeep, Memory.read, hk, ih]

/-- Writing a list changes no byte outside its addresses. -/
theorem Memory.read_writeList_outside : ∀ (bs : List Byte) (m : Memory) {a a' : Nat},
    a' < a ∨ a + bs.length ≤ a' → (m.writeList a bs).read a' = m.read a'
  | [], _, _, _, _ => rfl
  | b :: bs, m, a, a', h => by
    rw [List.length_cons] at h
    rw [Memory.writeList, Memory.read_writeList_outside bs _ (by omega), Memory.read_write_other m a a' b (by omega)]

/-- Writing a list leaves its bytes at its addresses. -/
theorem Memory.read_writeList_inside : ∀ (bs : List Byte) {m : Memory} (a : Nat), m.wf →
    ∀ k (h : k < bs.length), (m.writeList a bs).read (a + k) = bs[k]
  | b :: bs, m, a, hwf, 0, _ => by
    rw [Memory.writeList, Memory.read_writeList_outside bs _ (by omega), Nat.add_zero, Memory.read_write_same m a b hwf,
      List.getElem_cons_zero]
  | b :: bs, m, a, hwf, k + 1, h => by
    have haddr : a + (k + 1) = a + 1 + k := by omega
    rw [haddr, Memory.writeList, List.getElem_cons_succ,
      Memory.read_writeList_inside bs (a + 1) (Memory.write_wf m a b hwf) k]

/-! ### The memory at boot -/

/-- The memory that `reset(image)` leaves: the image at address 0 over the allocated part of `INIT_MEM` (70 R230). -/
def bootMemory (initMem : Memory) (image : List Byte) (size : Nat) : Memory :=
  Memory.writeList (initMem.filter fun c => decide (c.1 < size)) 0 image

section bootMemory

variable {initMem : Memory} {image : List Byte} {size : Nat}

theorem bootMemory_wf (hwf : initMem.wf) : (bootMemory initMem image size).wf :=
  Memory.writeList_wf image _ 0 (Memory.filter_wf _ hwf)

theorem bootMemory_within (hfit : image.length ≤ size) : (bootMemory initMem image size).within size := by
  refine Memory.writeList_within image _ 0 size (fun c hc => ?_) (by omega)
  simpa using (List.mem_filter.1 hc).2

theorem bootMemory_read_image (hwf : initMem.wf) (k : Nat) (h : k < image.length) :
    (bootMemory initMem image size).read k = image[k] := by
  rw [← Memory.read_writeList_inside image 0 (Memory.filter_wf _ hwf) k h, Nat.zero_add, bootMemory]

theorem bootMemory_read_above {k : Nat} (hlo : image.length ≤ k) (hhi : k < size) :
    (bootMemory initMem image size).read k = initMem.read k := by
  rw [bootMemory, Memory.read_writeList_outside _ _ (by omega), Memory.read_filter fun _ => decide_eq_true hhi]

end bootMemory

/-! ### The boot -/

theorem imageLoadable_iff {c : Config} {image : List Byte} :
    imageLoadable c image = true ↔ 9 ≤ image.length ∧ image.length ≤ c.memSize := by
  simp [imageLoadable]

/-- The state `reset(image)` leaves when the host may load the image (70 R230). -/
theorem bootImage_of_loadable (initRegs : Vector Word 15) (initMem : Memory) {image : List Byte} {s : State}
    (h : imageLoadable s.cfg image = true) :
    bootImage initRegs initMem image s = some
      { regs := initRegs, pc := 0, mem := bootMemory initMem image s.cfg.memSize, stack := [], run := .running,
        fault := none, out := [], inp := s.inp, cfg := s.cfg } :=
  if_pos h

/-- Any other image is refused (70 R232). -/
theorem bootImage_of_not_loadable (initRegs : Vector Word 15) (initMem : Memory) {image : List Byte} {s : State}
    (h : ¬ imageLoadable s.cfg image = true) : bootImage initRegs initMem image s = none :=
  if_neg h

/-- Settles O56: a loadable image is at address 0 of the boot memory with `INIT_MEM` above it, any other is refused. -/
theorem bootLoadsTheImage : Obligations.BootLoadsTheImage := by
  refine fun initRegs initMem image s hwf => ⟨fun h => ?_, fun hslot hfit => ?_⟩
  · exact bootImage_of_not_loadable _ _ (mt imageLoadable_iff.1 h)
  · exact ⟨_, bootImage_of_loadable _ _ (imageLoadable_iff.2 ⟨hslot, hfit⟩), bootMemory_read_image hwf,
      fun _ => bootMemory_read_above, rfl, rfl, rfl, rfl, rfl, rfl, rfl, rfl⟩

/-- Settles O57: a boot that was not refused has the boot's memory, an empty stack and no fault. -/
theorem bootMeetsTheInvariant : Obligations.BootMeetsTheInvariant := by
  intro initRegs initMem image s t hwf hcfg h
  by_cases hload : imageLoadable s.cfg image = true
  · rw [bootImage_of_loadable _ _ hload] at h
    obtain rfl := Option.some.inj h
    exact ⟨hcfg, bootMemory_wf hwf, bootMemory_within (imageLoadable_iff.1 hload).2,
      stackFits_iff.2 fun n _ => Nat.zero_le n, rfl⟩
  · rw [bootImage_of_not_loadable _ _ hload] at h
    cases h

end Sys2Proof.Machine
end

section
/-! PROOFS. The words of the spec's vectors, as encodings that the decoder reads back. -/

namespace Sys2Proof

/-- Settles O4: each word is the encoding of its instruction, with nothing after it. -/
theorem specWordsDecode : Obligations.SpecWordsDecode :=
  ⟨decodeReadsBackEncode (.set 3 258) [], decodeReadsBackEncode (.add 2 0 1) [], decodeReadsBackEncode (.str 0 1) [],
    decodeReadsBackEncode (.jle 0 1 512) [], decodeReadsBackEncode (.call 9) [], decodeReadsBackEncode .hlt []⟩

end Sys2Proof
end
